-- ==== Sys2Proof/Word.lean ====
section
/-! DEFINITION. The widths of the machine (spec/00_scope.md R4, R7): nibble, byte, address, opcode word. -/

namespace Sys2Proof

/-- 4 bits: a register number, a key, the height of a sprite (R7, R29, R83). -/
abbrev Nibble := BitVec 4

/-- 8 bits: a general register, a timer, a memory byte, a display byte (R7). -/
abbrev Byte := BitVec 8

/-- 12 bits: `pc`, `I`, a stack slot, an address of `mem` (R7). Its addition wraps modulo 4096,
which is the `a12` of R9. -/
abbrev Addr := BitVec 12

/-- 16 bits: the opcode word (R7, R80). -/
abbrev OpWord := BitVec 16

end Sys2Proof
end

