-- ==== Sys2Proof/Syntax.lean ====
section
/-! DEFINITION. The instructions: one constructor per row of spec/opcode_table.json, in the table's order
(spec/30_encoding.md R90), with the operand fields of R81. -/

namespace Sys2Proof

/-- The decoder's structured result (R6): a row of the opcode map and its operand fields. `x` and `y` are
register numbers, `kk` an immediate byte, `nnn` a 12-bit address, `n` a number of sprite rows (R83). -/
inductive Instr where
  /-- `00E0`, R190. -/
  | graphicsClear
  /-- `00EE`, R143. -/
  | ret
  /-- `00FD`, R221. -/
  | exit
  /-- `0nnn` other than `00E0`, `00EE`, `00FD`, R222. -/
  | sys (nnn : Addr)
  /-- `1nnn`, R140. -/
  | jump (nnn : Addr)
  /-- `2nnn`, R142. -/
  | call (nnn : Addr)
  /-- `3xkk`, R144. -/
  | skipEqVxKk (x : Nibble) (kk : Byte)
  /-- `4xkk`, R145. -/
  | skipNeVxKk (x : Nibble) (kk : Byte)
  /-- `5xy0`, R146. -/
  | skipEqVxVy (x y : Nibble)
  /-- `6xkk`, R160. -/
  | setVxKk (x : Nibble) (kk : Byte)
  /-- `7xkk`, R161. -/
  | addVxKk (x : Nibble) (kk : Byte)
  /-- `8xy0`, R162. -/
  | setVxVy (x y : Nibble)
  /-- `8xy1`, R163. -/
  | orVxVy (x y : Nibble)
  /-- `8xy2`, R164. -/
  | andVxVy (x y : Nibble)
  /-- `8xy3`, R165. -/
  | xorVxVy (x y : Nibble)
  /-- `8xy4`, R166. -/
  | addcVxVy (x y : Nibble)
  /-- `8xy5`, R167. -/
  | subVxVy (x y : Nibble)
  /-- `8xy6`, R168. -/
  | shrVxVy (x y : Nibble)
  /-- `8xy7`, R169. -/
  | subrVxVy (x y : Nibble)
  /-- `8xyE`, R170. -/
  | shlVxVy (x y : Nibble)
  /-- `9xy0`, R147. -/
  | skipNeVxVy (x y : Nibble)
  /-- `Annn`, R210. -/
  | indexSet (nnn : Addr)
  /-- `Bnnn`, R141. -/
  | jumpV0 (nnn : Addr)
  /-- `Cxkk`, R175. -/
  | randVxKk (x : Nibble) (kk : Byte)
  /-- `Dxyn`, R191. -/
  | graphicsDraw (x y n : Nibble)
  /-- `Fx07`, R173. -/
  | timerGet (x : Nibble)
  /-- `Fx0A`, R220. -/
  | keyAwait (x : Nibble)
  /-- `Fx15`, R171. -/
  | setDelay (x : Nibble)
  /-- `Fx18`, R172. -/
  | setSound (x : Nibble)
  /-- `Fx1E`, R211. -/
  | indexAdd (x : Nibble)
  /-- `Fx29`, R212. -/
  | fontVx (x : Nibble)
deriving DecidableEq, Repr

end Sys2Proof
end

