-- ==== Sys2Proof/WellFormed.lean ====
section
/-! DEFINITION. Which instruction values the decoder can yield (spec/30_encoding.md R96): every value but the three
SysCalls whose words are Clear, Return and Exit. The widths of the fields are in their types. -/

namespace Sys2Proof

/-- `SysCall(0x0E0)`, `SysCall(0x0EE)` and `SysCall(0x0FD)` "encode to words that decode as Clear, Return and
Exit; the decoder never yields those three values" (R96). -/
def sysTargetFree (nnn : Addr) : Bool :=
  nnn != 0x0E0#12 && nnn != 0x0EE#12 && nnn != 0x0FD#12

/-- The instruction values that have an encoding of their own (R96). -/
def Instr.wellFormed (i : Instr) : Bool :=
  match i with
  | .sys nnn => sysTargetFree nnn
  | .graphicsClear => true
  | .ret => true
  | .exit => true
  | .jump _ => true
  | .call _ => true
  | .skipEqVxKk _ _ => true
  | .skipNeVxKk _ _ => true
  | .skipEqVxVy _ _ => true
  | .setVxKk _ _ => true
  | .addVxKk _ _ => true
  | .setVxVy _ _ => true
  | .orVxVy _ _ => true
  | .andVxVy _ _ => true
  | .xorVxVy _ _ => true
  | .addcVxVy _ _ => true
  | .subVxVy _ _ => true
  | .shrVxVy _ _ => true
  | .subrVxVy _ _ => true
  | .shlVxVy _ _ => true
  | .skipNeVxVy _ _ => true
  | .indexSet _ => true
  | .jumpV0 _ => true
  | .randVxKk _ _ => true
  | .graphicsDraw _ _ _ => true
  | .timerGet _ => true
  | .keyAwait _ => true
  | .setDelay _ => true
  | .setSound _ => true
  | .indexAdd _ => true
  | .fontVx _ => true

end Sys2Proof
end

