-- ==== Sys2Proof/Decode.lean ====
section
/-! DEFINITION. The decoder (spec/30_encoding.md R95), total on any two bytes, the encoder (R96), the opcode map as a
table of rows in priority order (R90), and the host's `decodeTableWord`. -/

namespace Sys2Proof

/-- Why a word is no instruction: "`InvalidOpCode` carrying the raw opcode" (R95, R97). -/
inductive DecodeError where
  | invalidOpCode (op : OpWord)
deriving DecidableEq, Repr

/-! ### The fields of a word (R81) -/

/-- `f = op[15:12]`, the family. -/
def fieldF (op : OpWord) : Nibble := op.extractLsb' 12 4
/-- `x = op[11:8]`. -/
def fieldX (op : OpWord) : Nibble := op.extractLsb' 8 4
/-- `y = op[7:4]`. -/
def fieldY (op : OpWord) : Nibble := op.extractLsb' 4 4
/-- `n = op[3:0]`. -/
def fieldN (op : OpWord) : Nibble := op.extractLsb' 0 4
/-- `kk = op[7:0]`. -/
def fieldKk (op : OpWord) : Byte := op.extractLsb' 0 8
/-- `nnn = op[11:0]`. -/
def fieldNnn (op : OpWord) : Addr := op.extractLsb' 0 12

/-- The word of two bytes, the byte at the lower address first and most significant (spec/20_memory.md R50). -/
def wordOfBytes (hi lo : Byte) : OpWord := hi ++ lo

/-- `op[15:8]`, the byte at the lower address (R50). -/
def highByte (op : OpWord) : Byte := op.extractLsb' 8 8
/-- `op[7:0]`, the byte at the higher address (R50). -/
def lowByte (op : OpWord) : Byte := op.extractLsb' 0 8

/-! ### The decoder (R95) -/

/-- Family 0: the three fixed words take precedence over SysCall (R95). -/
def decodeFamily0 (op : OpWord) : Instr :=
  if op = 0x00E0#16 then .graphicsClear
  else if op = 0x00EE#16 then .ret
  else if op = 0x00FD#16 then .exit
  else .sys (fieldNnn op)

/-- Family 8: the sub-opcode is `n` (R95). -/
def decodeFamily8 (op : OpWord) : Except DecodeError Instr :=
  let x := fieldX op
  let y := fieldY op
  match fieldN op with
  | 0x0#4 => .ok (.setVxVy x y)
  | 0x1#4 => .ok (.orVxVy x y)
  | 0x2#4 => .ok (.andVxVy x y)
  | 0x3#4 => .ok (.xorVxVy x y)
  | 0x4#4 => .ok (.addcVxVy x y)
  | 0x5#4 => .ok (.subVxVy x y)
  | 0x6#4 => .ok (.shrVxVy x y)
  | 0x7#4 => .ok (.subrVxVy x y)
  | 0xE#4 => .ok (.shlVxVy x y)
  | _ => .error (.invalidOpCode op)

/-- Family F: the sub-opcode is `kk` (R95). -/
def decodeFamilyF (op : OpWord) : Except DecodeError Instr :=
  let x := fieldX op
  match fieldKk op with
  | 0x07#8 => .ok (.timerGet x)
  | 0x0A#8 => .ok (.keyAwait x)
  | 0x15#8 => .ok (.setDelay x)
  | 0x18#8 => .ok (.setSound x)
  | 0x1E#8 => .ok (.indexAdd x)
  | 0x29#8 => .ok (.fontVx x)
  | _ => .error (.invalidOpCode op)

/-- `Decode(op)`: an instruction of R90 or the error that carries the word (R95). It reads nothing but `op`. -/
def decode (op : OpWord) : Except DecodeError Instr :=
  match fieldF op with
  | 0x0#4 => .ok (decodeFamily0 op)
  | 0x1#4 => .ok (.jump (fieldNnn op))
  | 0x2#4 => .ok (.call (fieldNnn op))
  | 0x3#4 => .ok (.skipEqVxKk (fieldX op) (fieldKk op))
  | 0x4#4 => .ok (.skipNeVxKk (fieldX op) (fieldKk op))
  | 0x5#4 => if fieldN op = 0#4 then .ok (.skipEqVxVy (fieldX op) (fieldY op)) else .error (.invalidOpCode op)
  | 0x6#4 => .ok (.setVxKk (fieldX op) (fieldKk op))
  | 0x7#4 => .ok (.addVxKk (fieldX op) (fieldKk op))
  | 0x8#4 => decodeFamily8 op
  | 0x9#4 => if fieldN op = 0#4 then .ok (.skipNeVxVy (fieldX op) (fieldY op)) else .error (.invalidOpCode op)
  | 0xA#4 => .ok (.indexSet (fieldNnn op))
  | 0xB#4 => .ok (.jumpV0 (fieldNnn op))
  | 0xC#4 => .ok (.randVxKk (fieldX op) (fieldKk op))
  | 0xD#4 => .ok (.graphicsDraw (fieldX op) (fieldY op) (fieldN op))
  | 0xF#4 => decodeFamilyF op
  | _ => .error (.invalidOpCode op)

/-- The decoder on the two bytes of an instruction as they lie in memory (R50, R80). -/
def decodeBytes (hi lo : Byte) : Except DecodeError Instr := decode (wordOfBytes hi lo)

/-! ### The encoder (R96): the fields at the positions of R81 under the row's `match` bits -/

/-- Format NNN (R82). -/
def packNnn (f : Nibble) (nnn : Addr) : OpWord := f ++ nnn
/-- Format XKK (R82). -/
def packXkk (f x : Nibble) (kk : Byte) : OpWord := (f ++ x) ++ kk
/-- Formats XY and XYN (R82). -/
def packXyn (f x y n : Nibble) : OpWord := (f ++ x) ++ (y ++ n)

/-- `Encode` (R96). -/
def encode (i : Instr) : OpWord :=
  match i with
  | .graphicsClear => 0x00E0#16
  | .ret => 0x00EE#16
  | .exit => 0x00FD#16
  | .sys nnn => packNnn 0x0#4 nnn
  | .jump nnn => packNnn 0x1#4 nnn
  | .call nnn => packNnn 0x2#4 nnn
  | .skipEqVxKk x kk => packXkk 0x3#4 x kk
  | .skipNeVxKk x kk => packXkk 0x4#4 x kk
  | .skipEqVxVy x y => packXyn 0x5#4 x y 0x0#4
  | .setVxKk x kk => packXkk 0x6#4 x kk
  | .addVxKk x kk => packXkk 0x7#4 x kk
  | .setVxVy x y => packXyn 0x8#4 x y 0x0#4
  | .orVxVy x y => packXyn 0x8#4 x y 0x1#4
  | .andVxVy x y => packXyn 0x8#4 x y 0x2#4
  | .xorVxVy x y => packXyn 0x8#4 x y 0x3#4
  | .addcVxVy x y => packXyn 0x8#4 x y 0x4#4
  | .subVxVy x y => packXyn 0x8#4 x y 0x5#4
  | .shrVxVy x y => packXyn 0x8#4 x y 0x6#4
  | .subrVxVy x y => packXyn 0x8#4 x y 0x7#4
  | .shlVxVy x y => packXyn 0x8#4 x y 0xE#4
  | .skipNeVxVy x y => packXyn 0x9#4 x y 0x0#4
  | .indexSet nnn => packNnn 0xA#4 nnn
  | .jumpV0 nnn => packNnn 0xB#4 nnn
  | .randVxKk x kk => packXkk 0xC#4 x kk
  | .graphicsDraw x y n => packXyn 0xD#4 x y n
  | .timerGet x => packXkk 0xF#4 x 0x07#8
  | .keyAwait x => packXkk 0xF#4 x 0x0A#8
  | .setDelay x => packXkk 0xF#4 x 0x15#8
  | .setSound x => packXkk 0xF#4 x 0x18#8
  | .indexAdd x => packXkk 0xF#4 x 0x1E#8
  | .fontVx x => packXkk 0xF#4 x 0x29#8

/-! ### The opcode map as a table (R82, R90) -/

/-- The six formats of R82. -/
inductive Format where
  | fixed | nnn | xkk | xy | xyn | x
deriving DecidableEq, Repr

/-- A row of R90: a word `op` selects it when `op & mask = value`. -/
structure OpcodeRow where
  number : Nat
  mask : OpWord
  value : OpWord
  format : Format
deriving DecidableEq, Repr

/-- Rows 1 to 9 of R90. -/
def opcodeRowsA : List OpcodeRow :=
  [⟨1, 0xFFFF#16, 0x00E0#16, .fixed⟩, ⟨2, 0xFFFF#16, 0x00EE#16, .fixed⟩, ⟨3, 0xFFFF#16, 0x00FD#16, .fixed⟩,
   ⟨4, 0xF000#16, 0x0000#16, .nnn⟩, ⟨5, 0xF000#16, 0x1000#16, .nnn⟩, ⟨6, 0xF000#16, 0x2000#16, .nnn⟩,
   ⟨7, 0xF000#16, 0x3000#16, .xkk⟩, ⟨8, 0xF000#16, 0x4000#16, .xkk⟩, ⟨9, 0xF00F#16, 0x5000#16, .xy⟩]

/-- Rows 10 to 21 of R90. -/
def opcodeRowsB : List OpcodeRow :=
  [⟨10, 0xF000#16, 0x6000#16, .xkk⟩, ⟨11, 0xF000#16, 0x7000#16, .xkk⟩, ⟨12, 0xF00F#16, 0x8000#16, .xy⟩,
   ⟨13, 0xF00F#16, 0x8001#16, .xy⟩, ⟨14, 0xF00F#16, 0x8002#16, .xy⟩, ⟨15, 0xF00F#16, 0x8003#16, .xy⟩,
   ⟨16, 0xF00F#16, 0x8004#16, .xy⟩, ⟨17, 0xF00F#16, 0x8005#16, .xy⟩, ⟨18, 0xF00F#16, 0x8006#16, .xy⟩,
   ⟨19, 0xF00F#16, 0x8007#16, .xy⟩, ⟨20, 0xF00F#16, 0x800E#16, .xy⟩, ⟨21, 0xF00F#16, 0x9000#16, .xy⟩]

/-- Rows 22 to 31 of R90. -/
def opcodeRowsC : List OpcodeRow :=
  [⟨22, 0xF000#16, 0xA000#16, .nnn⟩, ⟨23, 0xF000#16, 0xB000#16, .nnn⟩, ⟨24, 0xF000#16, 0xC000#16, .xkk⟩,
   ⟨25, 0xF000#16, 0xD000#16, .xyn⟩, ⟨26, 0xF0FF#16, 0xF007#16, .x⟩, ⟨27, 0xF0FF#16, 0xF00A#16, .x⟩,
   ⟨28, 0xF0FF#16, 0xF015#16, .x⟩, ⟨29, 0xF0FF#16, 0xF018#16, .x⟩, ⟨30, 0xF0FF#16, 0xF01E#16, .x⟩,
   ⟨31, 0xF0FF#16, 0xF029#16, .x⟩]

/-- The complete map of R90, in the order the rows are tried. -/
def opcodeRows : List OpcodeRow := opcodeRowsA ++ opcodeRowsB ++ opcodeRowsC

/-- "a word `op` selects the row when `op & mask = match`" (R90). -/
def OpcodeRow.selects (r : OpcodeRow) (op : OpWord) : Bool := op &&& r.mask == r.value

/-- The number of the first row of R90 that `op` selects, if any. -/
def selectedRow (op : OpWord) : Option Nat := (opcodeRows.find? (fun r => r.selects op)).map OpcodeRow.number

/-- The row of R90 an instruction belongs to. -/
def Instr.rowNumber (i : Instr) : Nat :=
  match i with
  | .graphicsClear => 1
  | .ret => 2
  | .exit => 3
  | .sys _ => 4
  | .jump _ => 5
  | .call _ => 6
  | .skipEqVxKk _ _ => 7
  | .skipNeVxKk _ _ => 8
  | .skipEqVxVy _ _ => 9
  | .setVxKk _ _ => 10
  | .addVxKk _ _ => 11
  | .setVxVy _ _ => 12
  | .orVxVy _ _ => 13
  | .andVxVy _ _ => 14
  | .xorVxVy _ _ => 15
  | .addcVxVy _ _ => 16
  | .subVxVy _ _ => 17
  | .shrVxVy _ _ => 18
  | .subrVxVy _ _ => 19
  | .shlVxVy _ _ => 20
  | .skipNeVxVy _ _ => 21
  | .indexSet _ => 22
  | .jumpV0 _ => 23
  | .randVxKk _ _ => 24
  | .graphicsDraw _ _ _ => 25
  | .timerGet _ => 26
  | .keyAwait _ => 27
  | .setDelay _ => 28
  | .setSound _ => 29
  | .indexAdd _ => 30
  | .fontVx _ => 31

/-! ### The host's reading of a table word -/

/-- The instruction the decoder reads from a word numbered as spec/opcode_table.json numbers it: one 16-bit
word (R80), laid out as two bytes, high byte first (R50). Bits from `nbits` on are zero. -/
def decodeTableWord (nbits w : Nat) : Option Instr :=
  let op : OpWord := BitVec.ofNat 16 (w % 2 ^ nbits)
  match decodeBytes (highByte op) (lowByte op) with
  | .ok i => some i
  | .error _ => none

end Sys2Proof
end

