-- ==== Sys2Proof/Config.lean ====
section
/-! DEFINITION. What an implementation fixes (the parameters of spec/00_scope.md R5) and the free values
(spec/40_tick_cycle.md R121, spec/42_arithmetic.md R175). -/

namespace Sys2Proof

/-- The parameters of R5, one field each: constant over a run, changed by no instruction, tick or reset (R31).
DESIGN CHOICE (log entry 1): a state carries its configuration with it, so that every statement over all
states is a statement over all configurations. -/
structure Config where
  /-- `SHIFT_USES_VY`: a shift takes its input from `V[y]` (`true`) or from `V[x]` (`false`), R177. -/
  shiftUsesVy : Bool
  /-- `DRAW_WRITES_VF`: Draw writes its collision result to `VF`, R194. -/
  drawWritesVf : Bool
  /-- `FONT_BASE`: the address of the first font byte, R33. -/
  fontBase : Addr
  /-- `FONT_DATA`: 16 glyphs of 5 bytes, R33. -/
  fontData : Vector (Vector Byte 5) 16
  /-- `SYSCALL_FAULTS`: SysCall is a fault of the model, R222. -/
  sysCallFaults : Bool
deriving DecidableEq, Repr

/-- FREE VALUE (log entry 3): the key the host gives to the tick of this number, "a free input: the core
places no law on the sequence of keys" (R121). -/
opaque Config.freeKey : Nat → Option Nibble

/-- FREE VALUE (log entry 4): the random byte of the randomize instruction of this number, "a free 8-bit input
of this execution" (R175). -/
opaque Config.freeDraw : Nat → Byte

/-- FREE VALUE (log entry 2): the setting of `SHIFT_USES_VY` at reset. R5 gives no default: "both are valid,
selected by configuration, not auto-detected". -/
opaque Config.freeShiftUsesVy : Bool

end Sys2Proof
end

