-- ==== Sys2Proof/Machine/Defaults.lean ====
section
/-! DEFINITION. The configuration at reset: the defaults of spec/00_scope.md R5 and the font table of
spec/10_state.md R33. -/

namespace Sys2Proof.Machine

/-- Glyphs `0` to `7` of the default font (spec/10_state.md R33). -/
def glyphs0to7 : Vector (Vector Byte 5) 8 :=
  #v[#v[0xF0, 0x90, 0x90, 0x90, 0xF0], #v[0x20, 0x60, 0x20, 0x20, 0x70],
     #v[0xF0, 0x10, 0xF0, 0x80, 0xF0], #v[0xF0, 0x10, 0xF0, 0x10, 0xF0],
     #v[0x90, 0x90, 0xF0, 0x10, 0x10], #v[0xF0, 0x80, 0xF0, 0x10, 0xF0],
     #v[0xF0, 0x80, 0xF0, 0x90, 0xF0], #v[0xF0, 0x10, 0x20, 0x40, 0x40]]

/-- Glyphs `8` to `F` of the default font (spec/10_state.md R33). -/
def glyphs8toF : Vector (Vector Byte 5) 8 :=
  #v[#v[0xF0, 0x90, 0xF0, 0x90, 0xF0], #v[0xF0, 0x90, 0xF0, 0x10, 0xF0],
     #v[0xF0, 0x90, 0xF0, 0x90, 0x90], #v[0xE0, 0x90, 0xE0, 0x90, 0xE0],
     #v[0xF0, 0x80, 0x80, 0x80, 0xF0], #v[0xE0, 0x90, 0x90, 0x90, 0xE0],
     #v[0xF0, 0x80, 0xF0, 0x80, 0xF0], #v[0xF0, 0x80, 0xF0, 0x80, 0x80]]

/-- The default `FONT_DATA` (R5, R33). -/
def defaultFontData : Vector (Vector Byte 5) 16 := glyphs0to7 ++ glyphs8toF

/-- The configuration a machine is created with (R5): the spec's defaults, and a free value for
`SHIFT_USES_VY`, which has no default (DESIGN CHOICE, log entry 2). -/
def configAtReset : Config :=
  { shiftUsesVy := Config.freeShiftUsesVy
    drawWritesVf := true
    fontBase := 0x050#12
    fontData := defaultFontData
    sysCallFaults := false }

end Sys2Proof.Machine
end

