-- ==== Sys2Proof/Machine/State.lean ====
section
/-! DEFINITION. The state of the core as plain data (spec/10_state.md R20), its reset value (R34), and the reasons a
step can stop (spec/60_exceptions.md R230, R235, R236). -/

namespace Sys2Proof.Machine

/-- The loaded-ROM record: the byte range `start .. start + len - 1` that the last `LoadRom` filled (R30). -/
structure RomRange where
  start : Addr
  len : Nat
deriving DecidableEq, Repr

/-- The one aggregate of R20. `mem` lists the bytes that differ from the reset contents (R33, R34) and `disp`
the bytes that are not `0x00`; both in rising order of address. The last five fields are the model's own. -/
structure State where
  /-- `V[0..15]`, R21; `V[15]` is `VF`, R22. -/
  v : Vector Byte 16
  /-- `pc`, R23. -/
  pc : Addr
  /-- `I`, R24. -/
  i : Addr
  /-- `DT`, R25. -/
  dt : Byte
  /-- `ST`, R25. -/
  st : Byte
  /-- `stack[0..15]`, R26. -/
  stack : Vector Addr 16
  /-- `sp`, "in 0..16, is the number of entries in use", R26 (log entry 14). -/
  sp : Fin 17
  /-- `mem`, R27. -/
  mem : List Host.Cell
  /-- `disp`, R28: pixel `p = 64*row + col`. -/
  disp : List Host.Cell
  /-- `key`, R29. -/
  key : Option Nibble
  /-- `rom`, R30. -/
  rom : Option RomRange
  /-- Model's own (log entry 1): the parameters of spec/00_scope.md R5, changed by nothing (R31). -/
  config : Config
  /-- Model's own (log entry 3): the keys the host passes to the coming ticks, first one first. -/
  keyInputs : List (Option Nibble)
  /-- Model's own (log entry 3): how many ticks have taken their key; it picks the free key. -/
  ticks : Nat
  /-- Model's own (log entry 4): how many random bytes have been drawn; it picks the free draw. -/
  draws : Nat
  /-- Model's own (log entry 5): the last outcome was `Exit`, so the run has ended. -/
  exited : Bool
deriving DecidableEq, Repr

/-- The reset state of a machine with configuration `c` (R34; the rows that rest on decision D19: log entry 8).
The configuration is no state (R31); the model's own fields start empty (log entries 3, 4, 5). -/
def State.resetWith (c : Config) : State :=
  { v := Vector.replicate 16 0x00#8
    pc := 0x000#12
    i := 0x000#12
    dt := 0x00#8
    st := 0x00#8
    stack := Vector.replicate 16 0x000#12
    sp := 0
    mem := []
    disp := []
    key := none
    rom := none
    config := c
    keyInputs := []
    ticks := 0
    draws := 0
    exited := false }

/-- The machine right after reset (R34), with the configuration of `configAtReset`. -/
def State.reset : State := State.resetWith configAtReset

/-- The faults of R236: the run stops and is never final. -/
inductive Fault where
  /-- Raised by the decode step of a tick and of an injected word, for any word of spec/30_encoding.md R97.
  Safe: the spec ends the run here too (R231, R236); `stateAfterTick` gives the state it leaves. -/
  | invalidOpCode (op : OpWord)
  /-- Raised by `2nnn` with 16 entries in use (R233). Safe: nothing may be relied on afterwards. -/
  | stackOverflow
  /-- Raised by `00EE` with an empty stack (R234). Safe: nothing may be relied on afterwards. -/
  | stackUnderflow
  /-- Raised by `0nnn` when `SYSCALL_FAULTS` is set (spec/45_key_and_system.md R222), "a fault of the model".
  Safe: the other setting goes on. -/
  | sysCall (nnn : Addr)
  /-- Raised by `LoadRom` while a ROM is loaded (spec/70_reset_and_hazards.md R262). Safe: fatal in the spec. -/
  | doubleLoad
  /-- Raised by `UnloadRom` with no ROM loaded (R263). Safe: fatal in the spec. -/
  | unloadOfNothing
deriving DecidableEq, Repr

/-- What has no meaning in the spec. -/
inductive Refusal where
  /-- Raised by an arm of `exec` whose instruction has no meaning yet (none is left). Safe. -/
  | notModelled (mnemonic : String)
  /-- Raised by a tick or a host operation other than `Reset` after the outcome `Exit`: "the only defined
  continuation is `reset`" (spec/40_tick_cycle.md R129). Safe: nothing is claimed of such a tick (log entry 5). -/
  | runEnded
deriving DecidableEq, Repr

/-- The three outcomes of a step of this machine. -/
abbrev Outcome := Host.Outcome State Fault Refusal

end Sys2Proof.Machine
end

