-- ==== Sys2Proof/Machine/Ops.lean ====
section
/-! DEFINITION. The named operations over the state: the sparse byte store behind `mem` and `disp`, registers, program
counter, stack, timers, inputs, and the one way a condition ends a tick (spec/00_scope.md R8 to R11). -/

namespace Sys2Proof.Machine

/-! ### A sparse store of bytes: what is not listed reads as `dflt` -/

/-- The byte at `a`. -/
def cellsRead (dflt : Nat → Byte) (m : List Host.Cell) (a : Nat) : Byte :=
  match m with
  | [] => dflt a
  | c :: rest => if c.1 = a then c.2 else cellsRead dflt rest a

/-- The list without an entry for `a`. -/
def cellsErase (a : Nat) (m : List Host.Cell) : List Host.Cell :=
  m.filter (fun c => c.1 != a)

/-- The list with `(a, b)` before the first entry of a larger address. -/
def cellsInsert (a : Nat) (b : Byte) (m : List Host.Cell) : List Host.Cell :=
  match m with
  | [] => [(a, b)]
  | c :: rest => if a < c.1 then (a, b) :: c :: rest else c :: cellsInsert a b rest

/-- Writing keeps the canonical form: the value an unlisted address reads as removes the entry. -/
def cellsWrite (dflt : Nat → Byte) (a : Nat) (b : Byte) (m : List Host.Cell) : List Host.Cell :=
  if b = dflt a then cellsErase a m else cellsInsert a b (cellsErase a m)

/-- Addresses strictly rising. -/
def cellsRising (m : List Host.Cell) : Bool :=
  match m with
  | [] => true
  | c :: rest => rest.all (fun d => decide (c.1 < d.1)) && cellsRising rest

/-- The canonical form: addresses below `bound`, strictly rising, and no entry equal to what an unlisted
address reads as. -/
def cellsWf (dflt : Nat → Byte) (bound : Nat) (m : List Host.Cell) : Bool :=
  cellsRising m && m.all (fun c => decide (c.1 < bound) && (c.2 != dflt c.1))

/-! ### Memory (R10, spec/10_state.md R27) -/

/-- What an unlisted address reads as: the reset contents, the font inside its range and `0x00` elsewhere
(R33, R34; log entry 7). -/
def resetByte (c : Config) (a : Nat) : Byte :=
  let offset := a - c.fontBase.toNat
  if c.fontBase.toNat ≤ a then
    match c.fontData[offset / 5]? with
    | some glyph => glyph[offset % 5]'(Nat.mod_lt _ (by decide))
    | none => 0x00#8
  else 0x00#8

/-- The canonical form of memory under a configuration. -/
def Memory.wf (c : Config) (m : List Host.Cell) : Bool := cellsWf (resetByte c) 4096 m

/-- `MemRead(a, 1)`, R10. It cannot fail. -/
def State.memRead (s : State) (a : Addr) : Byte := cellsRead (resetByte s.config) s.mem a.toNat

/-- `MemRead(a, 2) = mem[a] :: mem[a12(a + 1)]`, R10, high byte first. -/
def State.memRead2 (s : State) (a : Addr) : OpWord := wordOfBytes (s.memRead a) (s.memRead (a + 1))

/-- `MemWrite(a, 1, b)`, R10; only host operations use it. -/
def State.memWrite (s : State) (a : Addr) (b : Byte) : State :=
  { s with mem := cellsWrite (resetByte s.config) a.toNat b s.mem }

/-! ### The display (spec/10_state.md R28) -/

/-- What an unlisted display byte reads as: off. -/
def pixelOff (_ : Nat) : Byte := 0x00#8

/-- The canonical form of the display, 64 x 32 bytes. -/
def Display.wf (d : List Host.Cell) : Bool := cellsWf pixelOff 2048 d

/-- The index of the pixel at a column and a row: `64*row + column` (R28). -/
def pixelIndex (column row : Nat) : Nat := 64 * row + column

/-- `disp[p]` of a display. -/
def displayRead (d : List Host.Cell) (p : Nat) : Byte := cellsRead pixelOff d p

/-- `disp[p] <- b`. -/
def displayWrite (d : List Host.Cell) (p : Nat) (b : Byte) : List Host.Cell := cellsWrite pixelOff p b d

/-- `disp[p]`, R8. -/
def State.pixel (s : State) (p : Nat) : Byte := displayRead s.disp p

/-- The display replaced. -/
def State.setDisp (s : State) (d : List Host.Cell) : State := { s with disp := d }

/-! ### Registers (spec/10_state.md R21 to R25) -/

/-- `VF` is `V[15]`, R22. -/
def vf : Nibble := 0xF#4

/-- `V[x]`, R8. -/
def State.reg (s : State) (x : Nibble) : Byte := s.v[x.toNat]'x.isLt

/-- `V[x] <- b`, R8. -/
def State.setReg (s : State) (x : Nibble) (b : Byte) : State := { s with v := s.v.set x.toNat b x.isLt }

/-- `pc <- a`, R8. -/
def State.setPc (s : State) (a : Addr) : State := { s with pc := a }

/-- `I <- a`. -/
def State.setI (s : State) (a : Addr) : State := { s with i := a }

/-- `DT <- b`. -/
def State.setDt (s : State) (b : Byte) : State := { s with dt := b }

/-- `ST <- b`. -/
def State.setSt (s : State) (b : Byte) : State := { s with st := b }

/-- `pc <- a12(pc + 2)`: the advance of a tick (spec/40_tick_cycle.md R125) and of a taken Branch
(spec/41_flow.md R144). -/
def State.advancePc (s : State) : State := s.setPc (s.pc + 2)

/-- `pc <- a12(pc - 2)`: AwaitKey without a key (spec/45_key_and_system.md R220). -/
def State.rewindPc (s : State) : State := s.setPc (s.pc - 2)

/-- A Branch: skip the next instruction when the condition holds (spec/41_flow.md R144 to R147). -/
def State.skipIf (s : State) (taken : Bool) : State := if taken then s.advancePc else s

/-! ### Timers (spec/40_tick_cycle.md R124) -/

/-- "decrement ... by at most 1 (floor at 0, never below)". -/
def countDown (b : Byte) : Byte := if b = 0x00#8 then 0x00#8 else b - 1

/-- The timer step of a tick, R124. -/
def State.countTimers (s : State) : State := { s with dt := countDown s.dt, st := countDown s.st }

/-! ### The stack file (spec/10_state.md R26) -/

/-- A push: `stack[sp] <- a`, then `sp <- sp + 1`; none with 16 entries in use. -/
def State.push (s : State) (a : Addr) : Option State :=
  if h : s.sp.val < 16 then
    some { s with stack := s.stack.set s.sp.val a h, sp := ⟨s.sp.val + 1, Nat.succ_lt_succ h⟩ }
  else none

/-- A pop: `sp <- sp - 1`, then `stack[sp]` is read and kept; none with no entry in use. -/
def State.pop (s : State) : Option (Addr × State) :=
  if h : 0 < s.sp.val then
    let top := s.sp.val - 1
    have below : top < 16 := by have := s.sp.isLt; omega
    some (s.stack[top], { s with sp := ⟨top, Nat.lt_succ_of_lt below⟩ })
  else none

/-! ### Inputs: the key and the random byte -/

/-- `key <- key_in` (spec/40_tick_cycle.md R121). -/
def State.latchKey (s : State) (keyIn : Option Nibble) : State := { s with key := keyIn }

/-- The key the host gives to the next tick: the one it has supplied, else a free value (R121; log entry 3). -/
def State.nextKey (s : State) : Option Nibble :=
  match s.keyInputs with
  | [] => Config.freeKey s.ticks
  | keyIn :: _ => keyIn

/-- The next tick's key is used up. -/
def State.takeKey (s : State) : State := { s with keyInputs := s.keyInputs.tail, ticks := s.ticks + 1 }

/-- `draw8()`, a fresh free byte (spec/42_arithmetic.md R175; log entry 4). -/
def State.nextDraw (s : State) : Byte := Config.freeDraw s.draws

/-- The draw is used up. -/
def State.takeDraw (s : State) : State := { s with draws := s.draws + 1 }

/-! ### The loaded-ROM record (spec/10_state.md R30) -/

/-- `rom <- r`. -/
def State.setRom (s : State) (r : Option RomRange) : State := { s with rom := r }

/-! ### Outcomes (R11, spec/60_exceptions.md R230, R239) -/

/-- `raise Exit`: "a successful-termination signal" (spec/45_key_and_system.md R221). The state stands as it is
and the run is over (log entry 5). -/
def State.endRun (s : State) : State := { s with exited := true }

/-- `raise` of a condition that is a fault (R11, R236): the one way an exceptional condition is taken on this
machine, which has no trap entry: nothing is saved, no mode changes, control goes to the host (R239). -/
def raise (f : Fault) : Outcome := .fault f

/-- Completion with outcome `Ok` in a state (R230). -/
def done (s : State) : Outcome := .next s

end Sys2Proof.Machine
end

