-- ==== Sys2Proof/Machine/Flags.lean ====
section
/-! DEFINITION. The flag computations: carry, no borrow, the bit shifted out, and the order of the flag write
(spec/10_state.md R22, spec/42_arithmetic.md R174, R176). -/

namespace Sys2Proof.Machine

/-- A flag as the byte written to `VF`: 1 or 0 (R22). -/
def flagByte (flag : Bool) : Byte := if flag then 0x01#8 else 0x00#8

/-- The carry out of bit 7: "1 if the 9-bit sum exceeds 255, else 0" (R22, R166). -/
def carryOut (a b : Byte) : Bool := decide (255 < a.toNat + b.toNat)

/-- The flag of `m - s`: 1 when `m >= s` (no borrow), 0 when `m < s` (R176). -/
def noBorrow (m s : Byte) : Bool := decide (s.toNat ≤ m.toNat)

/-- The bit a right shift shifts out, `s[0]` (R168). -/
def shiftedOutRight (s : Byte) : Bool := s.getLsbD 0

/-- The bit a left shift shifts out, `s[7]` (R170). -/
def shiftedOutLeft (s : Byte) : Bool := s.getLsbD 7

/-- `VF <- flag` (R22). -/
def State.setFlag (s : State) (flag : Bool) : State := s.setReg vf (flagByte flag)

/-- "then the result is written to the target; then, for an instruction that defines a flag, `VF` is written"
(R174): with `x = 15` the flag wins. -/
def State.setResultAndFlag (s : State) (x : Nibble) (result : Byte) (flag : Bool) : State :=
  (s.setReg x result).setFlag flag

end Sys2Proof.Machine
end

