-- ==== Sys2Proof/Machine/Operands.lean ====
section
/-! DEFINITION. The operand forms: the shift input, the offset jump target, the index sum, the glyph address, the
sprite and its position, the key as a byte, and narrowing at the boundary (spec/00_scope.md R9, R10). -/

namespace Sys2Proof.Machine

/-- `zext_12(b)`, R7. -/
def zext12 (b : Byte) : Addr := b.setWidth 12

/-- The shift input `s = SHIFT_USES_VY ? V[y] : V[x]` (spec/42_arithmetic.md R177). -/
def State.shiftInput (s : State) (x y : Nibble) : Byte :=
  if s.config.shiftUsesVy then s.reg y else s.reg x

/-- The target of `Bnnn`: `a12(nnn + zext_12(V[0]))` (spec/41_flow.md R141). -/
def State.offsetTarget (s : State) (nnn : Addr) : Addr := nnn + zext12 (s.reg 0x0#4)

/-- The sum of `Fx1E`: `a12(I + zext_12(V[x]))` (spec/44_index_font.md R211). -/
def State.indexSum (s : State) (x : Nibble) : Addr := s.i + zext12 (s.reg x)

/-- The address of the glyph of a digit: `a12(FONT_BASE + 5 * b[3:0])` (spec/44_index_font.md R212). -/
def glyphAddress (c : Config) (b : Byte) : Addr := c.fontBase + BitVec.ofNat 12 (5 * (b.toNat % 16))

/-- The first column of a sprite: `V[x] mod 64` (spec/43_graphics.md R191). -/
def spriteColumn (b : Byte) : Nat := b.toNat % 64

/-- The first row of a sprite: `V[y] mod 32` (R191). -/
def spriteRow (b : Byte) : Nat := b.toNat % 32

/-- The address of row `r` of the sprite: `a12(I + r)` (R192). -/
def State.spriteAddress (s : State) (r : Nat) : Addr := s.i + BitVec.ofNat 12 r

/-- The rows of the sprite, `mem[a12(I + r)]` for `r` in `0 .. n-1` (R191, R192). -/
def State.spriteRows (s : State) (n : Nat) : List Byte :=
  (List.range n).map (fun r => s.memRead (s.spriteAddress r))

/-- `zext_8(k)` of a key (spec/45_key_and_system.md R220). -/
def keyByte (k : Nibble) : Byte := k.setWidth 8

/-- `IntSizeError`, "carrying the type name and offending value" (spec/60_exceptions.md R235); the type is given
by its width. -/
structure IntSizeError where
  width : Nat
  value : Nat
deriving DecidableEq, Repr

/-- Building a nibble, byte, address or word from a wider integer (R235). -/
def narrow (width value : Nat) : Except IntSizeError (BitVec width) :=
  if value < 2 ^ width then .ok (BitVec.ofNat width value) else .error ⟨width, value⟩

end Sys2Proof.Machine
end

