-- ==== Sys2Proof/Machine/Arithmetic.lean ====
section
/-! DEFINITION. Arithmetic: assign, add, subtract, bitwise, shift, randomize, timers (spec/42_arithmetic.md). Operands are
read first, the result is written, the flag is written last (R174). -/

namespace Sys2Proof.Machine

/-- `6xkk`, R160. -/
def execSetVxKk (x : Nibble) (kk : Byte) (s : State) : Outcome := done (s.setReg x kk)

/-- `7xkk`, R161: wrapping, no flag. -/
def execAddVxKk (x : Nibble) (kk : Byte) (s : State) : Outcome := done (s.setReg x (s.reg x + kk))

/-- `8xy0`, R162. -/
def execSetVxVy (x y : Nibble) (s : State) : Outcome := done (s.setReg x (s.reg y))

/-- `8xy1`, R163. -/
def execOrVxVy (x y : Nibble) (s : State) : Outcome := done (s.setReg x (s.reg x ||| s.reg y))

/-- `8xy2`, R164. -/
def execAndVxVy (x y : Nibble) (s : State) : Outcome := done (s.setReg x (s.reg x &&& s.reg y))

/-- `8xy3`, R165. -/
def execXorVxVy (x y : Nibble) (s : State) : Outcome := done (s.setReg x (s.reg x ^^^ s.reg y))

/-- `8xy4`, R166. -/
def execAddcVxVy (x y : Nibble) (s : State) : Outcome :=
  let a := s.reg x
  let b := s.reg y
  done (s.setResultAndFlag x (a + b) (carryOut a b))

/-- `8xy5`, R167. -/
def execSubVxVy (x y : Nibble) (s : State) : Outcome :=
  let a := s.reg x
  let b := s.reg y
  done (s.setResultAndFlag x (a - b) (noBorrow a b))

/-- `8xy6`, R168: a logical shift right by one of the input of R177. -/
def execShrVxVy (x y : Nibble) (s : State) : Outcome :=
  let input := s.shiftInput x y
  done (s.setResultAndFlag x (input >>> 1) (shiftedOutRight input))

/-- `8xy7`, R169: the minuend is `V[y]`, the target `V[x]`. -/
def execSubrVxVy (x y : Nibble) (s : State) : Outcome :=
  let a := s.reg x
  let b := s.reg y
  done (s.setResultAndFlag x (b - a) (noBorrow b a))

/-- `8xyE`, R170: a logical shift left by one of the input of R177. -/
def execShlVxVy (x y : Nibble) (s : State) : Outcome :=
  let input := s.shiftInput x y
  done (s.setResultAndFlag x (input <<< 1) (shiftedOutLeft input))

/-- `Cxkk` with the draw given: `V[x] <- r & kk` (R175). -/
def State.randomize (s : State) (r : Byte) (x : Nibble) (kk : Byte) : State := s.setReg x (r &&& kk)

/-- `Cxkk`, R175: the draw is a free value (log entry 4). -/
def execRandVxKk (x : Nibble) (kk : Byte) (s : State) : Outcome :=
  done (s.takeDraw.randomize s.nextDraw x kk)

/-- `Fx07`, R173. -/
def execTimerGet (x : Nibble) (s : State) : Outcome := done (s.setReg x s.dt)

/-- `Fx15`, R171. -/
def execSetDelay (x : Nibble) (s : State) : Outcome := done (s.setDt (s.reg x))

/-- `Fx18`, R172. -/
def execSetSound (x : Nibble) (s : State) : Outcome := done (s.setSt (s.reg x))

end Sys2Proof.Machine
end

