-- ==== Sys2Proof/Machine/Flow.lean ====
section
/-! DEFINITION. Flow: Jump, Call, Return, Branch (spec/41_flow.md). Each meaning is the execute step alone: `pc` already
holds the address of the next instruction. -/

namespace Sys2Proof.Machine

/-- `00EE`, R143: `StackUnderflow` with an empty stack, raised before any write. -/
def execRet (s : State) : Outcome :=
  match s.pop with
  | some (a, t) => done (t.setPc a)
  | none => raise .stackUnderflow

/-- `1nnn`, R140. -/
def execJump (nnn : Addr) (s : State) : Outcome := done (s.setPc nnn)

/-- `2nnn`, R142: `StackOverflow` with 16 entries in use, raised before any write. -/
def execCall (nnn : Addr) (s : State) : Outcome :=
  match s.push s.pc with
  | some t => done (t.setPc nnn)
  | none => raise .stackOverflow

/-- `3xkk`, R144. -/
def execSkipEqVxKk (x : Nibble) (kk : Byte) (s : State) : Outcome := done (s.skipIf (s.reg x == kk))

/-- `4xkk`, R145. -/
def execSkipNeVxKk (x : Nibble) (kk : Byte) (s : State) : Outcome := done (s.skipIf (s.reg x != kk))

/-- `5xy0`, R146. -/
def execSkipEqVxVy (x y : Nibble) (s : State) : Outcome := done (s.skipIf (s.reg x == s.reg y))

/-- `9xy0`, R147. -/
def execSkipNeVxVy (x y : Nibble) (s : State) : Outcome := done (s.skipIf (s.reg x != s.reg y))

/-- `Bnnn`, R141. -/
def execJumpV0 (nnn : Addr) (s : State) : Outcome := done (s.setPc (s.offsetTarget nnn))

end Sys2Proof.Machine
end

