-- ==== Sys2Proof/Machine/Graphics.lean ====
section
/-! DEFINITION. Graphics: Clear, Draw and the blit primitive (spec/43_graphics.md). -/

namespace Sys2Proof.Machine

/-- The display and whether a pixel has gone from on to off so far. -/
abbrev Blit := List Host.Cell × Bool

/-- A sprite bit of 1 over pixel `p`: on goes off with a collision, off goes on (R193). "nonzero treated as on". -/
def togglePixel (p : Nat) (acc : Blit) : Blit :=
  if displayRead acc.1 p = 0x00#8 then (displayWrite acc.1 p 0xFF#8, acc.2)
  else (displayWrite acc.1 p 0x00#8, true)

/-- Bit `7 - c` of a sprite row: bit 7 is the leftmost pixel (R193). -/
def spriteBit (row : Byte) (c : Nat) : Bool := row.getLsbD (7 - c)

/-- Column `c` of a sprite row at display row `yy`: clipped at the right edge, and a bit of 0 leaves the pixel as
it is (R193). -/
def blitColumn (row : Byte) (x0 yy c : Nat) (acc : Blit) : Blit :=
  if x0 + c < 64 then
    if spriteBit row c then togglePixel (pixelIndex (x0 + c) yy) acc else acc
  else acc

/-- The given columns of one sprite row, in order. -/
def blitColumns (row : Byte) (x0 yy : Nat) (cs : List Nat) (acc : Blit) : Blit :=
  match cs with
  | [] => acc
  | c :: rest => blitColumns row x0 yy rest (blitColumn row x0 yy c acc)

/-- One sprite row at display row `yy`, clipped at the bottom edge (R193). -/
def blitRow (row : Byte) (x0 yy : Nat) (acc : Blit) : Blit :=
  if yy < 32 then blitColumns row x0 yy (List.range 8) acc else acc

/-- The sprite rows from display row `yy` downwards. -/
def blitRows (x0 yy : Nat) (rows : List Byte) (acc : Blit) : Blit :=
  match rows with
  | [] => acc
  | row :: rest => blitRows x0 (yy + 1) rest (blitRow row x0 yy acc)

/-- `Blit(rows, x0, y0)`: the display afterwards and whether any pixel went from on to off (R193). -/
def blit (d : List Host.Cell) (rows : List Byte) (x0 y0 : Nat) : Blit := blitRows x0 y0 rows (d, false)

/-- `00E0`, R190: every display byte `0x00`. -/
def execGraphicsClear (s : State) : Outcome := done (s.setDisp [])

/-- What Draw's blit gives in a state: the sprite at `I` of `n` rows at `(V[x] mod 64, V[y] mod 32)` (R191). -/
def State.drawResult (s : State) (x y n : Nibble) : Blit :=
  blit s.disp (s.spriteRows n.toNat) (spriteColumn (s.reg x)) (spriteRow (s.reg y))

/-- `Dxyn`, R191; the collision is written to `VF` when `DRAW_WRITES_VF` (R194). -/
def execGraphicsDraw (x y n : Nibble) (s : State) : Outcome :=
  let result := s.drawResult x y n
  let drawn := s.setDisp result.1
  done (if s.config.drawWritesVf then drawn.setFlag result.2 else drawn)

end Sys2Proof.Machine
end

