-- ==== Sys2Proof/Machine/Index.lean ====
section
/-! DEFINITION. Index and font (spec/44_index_font.md): no flag, no general register is written. -/

namespace Sys2Proof.Machine

/-- `Annn`, R210. -/
def execIndexSet (nnn : Addr) (s : State) : Outcome := done (s.setI nnn)

/-- `Fx1E`, R211: wraps modulo 4096, no flag. -/
def execIndexAdd (x : Nibble) (s : State) : Outcome := done (s.setI (s.indexSum x))

/-- `Fx29`, R212: the low nibble of `V[x]` picks the glyph; `mem` is not read. -/
def execFontVx (x : Nibble) (s : State) : Outcome := done (s.setI (glyphAddress s.config (s.reg x)))

end Sys2Proof.Machine
end

