-- ==== Sys2Proof/Machine/System.lean ====
section
/-! DEFINITION. AwaitKey, Exit and SysCall (spec/45_key_and_system.md). -/

namespace Sys2Proof.Machine

/-- `00FD`, R221: the execute step writes nothing and the run is over (log entry 5). -/
def execExit (s : State) : Outcome := done s.endRun

/-- `0nnn`, R222: nothing, or a fault of the model under `SYSCALL_FAULTS`. -/
def execSys (nnn : Addr) (s : State) : Outcome :=
  if s.config.sysCallFaults then raise (.sysCall nnn) else done s

/-- `Fx0A` on the latched key: the key into `V[x]`, or back to the same word (R220). The key is not cleared. -/
def State.awaitKey (s : State) (x : Nibble) : State :=
  match s.key with
  | some k => s.setReg x (keyByte k)
  | none => s.rewindPc

/-- `Fx0A`, R220. -/
def execKeyAwait (x : Nibble) (s : State) : Outcome := done (s.awaitKey x)

end Sys2Proof.Machine
end

