-- ==== Sys2Proof/Machine/Dispatch.lean ====
section
/-! DEFINITION. The execute step (spec/40_tick_cycle.md R126): one meaning per instruction. -/

namespace Sys2Proof.Machine

/-- `Execute(instr)`: "one rule per row of `30_encoding.md` rule R90" (R126). -/
def exec (i : Instr) (s : State) : Host.Outcome State Fault Refusal :=
  match i with
  | .graphicsClear => Sys2Proof.Machine.execGraphicsClear s
  | .ret => Sys2Proof.Machine.execRet s
  | .exit => Sys2Proof.Machine.execExit s
  | .sys nnn => Sys2Proof.Machine.execSys nnn s
  | .jump nnn => Sys2Proof.Machine.execJump nnn s
  | .call nnn => Sys2Proof.Machine.execCall nnn s
  | .skipEqVxKk x kk => Sys2Proof.Machine.execSkipEqVxKk x kk s
  | .skipNeVxKk x kk => Sys2Proof.Machine.execSkipNeVxKk x kk s
  | .skipEqVxVy x y => Sys2Proof.Machine.execSkipEqVxVy x y s
  | .setVxKk x kk => Sys2Proof.Machine.execSetVxKk x kk s
  | .addVxKk x kk => Sys2Proof.Machine.execAddVxKk x kk s
  | .setVxVy x y => Sys2Proof.Machine.execSetVxVy x y s
  | .orVxVy x y => Sys2Proof.Machine.execOrVxVy x y s
  | .andVxVy x y => Sys2Proof.Machine.execAndVxVy x y s
  | .xorVxVy x y => Sys2Proof.Machine.execXorVxVy x y s
  | .addcVxVy x y => Sys2Proof.Machine.execAddcVxVy x y s
  | .subVxVy x y => Sys2Proof.Machine.execSubVxVy x y s
  | .shrVxVy x y => Sys2Proof.Machine.execShrVxVy x y s
  | .subrVxVy x y => Sys2Proof.Machine.execSubrVxVy x y s
  | .shlVxVy x y => Sys2Proof.Machine.execShlVxVy x y s
  | .skipNeVxVy x y => Sys2Proof.Machine.execSkipNeVxVy x y s
  | .indexSet nnn => Sys2Proof.Machine.execIndexSet nnn s
  | .jumpV0 nnn => Sys2Proof.Machine.execJumpV0 nnn s
  | .randVxKk x kk => Sys2Proof.Machine.execRandVxKk x kk s
  | .graphicsDraw x y n => Sys2Proof.Machine.execGraphicsDraw x y n s
  | .timerGet x => Sys2Proof.Machine.execTimerGet x s
  | .keyAwait x => Sys2Proof.Machine.execKeyAwait x s
  | .setDelay x => Sys2Proof.Machine.execSetDelay x s
  | .setSound x => Sys2Proof.Machine.execSetSound x s
  | .indexAdd x => Sys2Proof.Machine.execIndexAdd x s
  | .fontVx x => Sys2Proof.Machine.execFontVx x s

end Sys2Proof.Machine
end

