-- ==== Sys2Proof/Machine/Tick.lean ====
section
/-! DEFINITION. The tick (spec/40_tick_cycle.md R127), its outcome and code (spec/60_exceptions.md R230), the state each
outcome leaves (R231, R232), and placing a word where the next tick fetches it. -/

namespace Sys2Proof.Machine

/-- The fetch: `op <- MemRead(pc, 2)` (R122). -/
def State.fetchWord (s : State) : OpWord := s.memRead2 s.pc

/-- What a tick does before it executes: latch the key (R121), count the timers (R124), advance the pc (R125). -/
def State.beforeExecute (s : State) (keyIn : Option Nibble) : State :=
  (s.latchKey keyIn).countTimers.advancePc

/-- The fault of a word that does not decode (spec/60_exceptions.md R231). -/
def decodeFault (e : DecodeError) : Fault :=
  match e with
  | .invalidOpCode op => .invalidOpCode op

/-- `Tick(key_in)`, the pseudocode of R127. After `Exit` no further tick is defined (R129). -/
def tick (keyIn : Option Nibble) (s : State) : Outcome :=
  if s.exited then .refused .runEnded
  else
    match decode s.fetchWord with
    | .error e => raise (decodeFault e)
    | .ok i => exec i (s.beforeExecute keyIn)

/-- The five outcomes of R230, and the fault of the model of spec/45_key_and_system.md R222. -/
inductive TickOutcome where
  | ok
  | exit
  | invalidOpCode (op : OpWord)
  | stackOverflow
  | stackUnderflow
  | sysCallFault (nnn : Addr)
deriving DecidableEq, Repr

/-- The code column of R230; the fault of the model has none. -/
def TickOutcome.code (o : TickOutcome) : Option Nat :=
  match o with
  | .ok => some 0
  | .exit => some 1
  | .invalidOpCode _ => some 2
  | .stackOverflow => some 3
  | .stackUnderflow => some 4
  | .sysCallFault _ => none

/-- The outcome of a step of the model as R230 names it; none for a stop that is no outcome of a tick. -/
def tickOutcomeOf (o : Outcome) : Option TickOutcome :=
  match o with
  | .next t => some (if t.exited then .exit else .ok)
  | .fault (.invalidOpCode op) => some (.invalidOpCode op)
  | .fault .stackOverflow => some .stackOverflow
  | .fault .stackUnderflow => some .stackUnderflow
  | .fault (.sysCall nnn) => some (.sysCallFault nnn)
  | .fault .doubleLoad => none
  | .fault .unloadOfNothing => none
  | .refused _ => none

/-- The outcome of a tick (R230); none where no tick is defined (R129). -/
def tickOutcome (keyIn : Option Nibble) (s : State) : Option TickOutcome := tickOutcomeOf (tick keyIn s)

/-- The state a tick leaves where the spec gives it: after `Ok` and `Exit` the next state (R232), after
`InvalidOpCode` the state before the tick "except the latched `key`" (R231); none after a fatal condition, of
whose state "a model may rely on nothing" (R233; log entry 6). -/
def stateAfterTick (keyIn : Option Nibble) (s : State) : Option State :=
  match tick keyIn s with
  | .next t => some t
  | .fault (.invalidOpCode _) => some (s.latchKey keyIn)
  | .fault _ => none
  | .refused _ => none

/-- A step of the machine as the host drives it: a tick with the next key (log entry 3). -/
def stepWithNextKey (s : State) : Outcome := tick s.nextKey s.takeKey

/-- The word `op` stored at `a`, high byte first (spec/20_memory.md R50). -/
def State.storeWord (s : State) (a : Addr) (op : OpWord) : State :=
  (s.memWrite a (highByte op)).memWrite (a + 1) (lowByte op)

/-- The word placed where the next tick fetches it, in a run that has not ended (log entry 10). -/
def State.placeWord (s : State) (op : OpWord) : State :=
  { s.storeWord s.pc op with exited := false }

end Sys2Proof.Machine
end

