-- ==== Sys2Proof/Machine/Step.lean ====
section
/-! DEFINITION. One step: `Tick` (spec/40_tick_cycle.md R120, R121), and the host's placing of a word. -/

namespace Sys2Proof.Machine

/-- "The core has one kind of step, the tick" (R120). -/
def step (s : State) : Host.Outcome State Fault Refusal := stepWithNextKey s

/-- `s` with the table word `w` stored at `pc`, where the next step fetches it; bits from `nbits` on are zero. -/
def State.withFetchWord (s : State) (nbits w : Nat) : State :=
  s.placeWord (BitVec.ofNat 16 (w % 2 ^ nbits))

end Sys2Proof.Machine
end

