-- ==== Sys2Proof/Machine/Assembly.lean ====
section
/-! DEFINITION. The assembler text (spec/30_encoding.md R100 to R104): tokens, the mnemonics of R90, the source's structured
instruction with the operand combinations that have no encoding (R103), parsing with its errors, and rendering. It is
around the core, and no step of the machine uses it (log entry 12). -/

namespace Sys2Proof.Machine

/-! ### Tokens (R100, R101) -/

/-- The bare words of the mnemonic column of R90, and `draw` standing alone (R102). -/
inductive Keyword where
  | graphics | clear | draw | ret | exit | sys | jump | call | skip | eq | ne
  | set | add | or | and | xor | addc | sub | shr | subr | shl | rand
  | index | timer | get | key | await | delay | sound | font
deriving DecidableEq, Repr

/-- Every keyword. -/
def keywords : List Keyword :=
  [.graphics, .clear, .draw, .ret, .exit, .sys, .jump, .call, .skip, .eq, .ne] ++
  [.set, .add, .or, .and, .xor, .addc, .sub, .shr, .subr, .shl, .rand] ++
  [.index, .timer, .get, .key, .await, .delay, .sound, .font]

/-- The spelling of a keyword (R90, R101). -/
def Keyword.spelling (k : Keyword) : List Char :=
  match k with
  | .graphics => ['g', 'r', 'a', 'p', 'h', 'i', 'c', 's']
  | .clear => ['c', 'l', 'e', 'a', 'r']
  | .draw => ['d', 'r', 'a', 'w']
  | .ret => ['r', 'e', 't', 'u', 'r', 'n']
  | .exit => ['e', 'x', 'i', 't']
  | .sys => ['s', 'y', 's']
  | .jump => ['j', 'u', 'm', 'p']
  | .call => ['c', 'a', 'l', 'l']
  | .skip => ['s', 'k', 'i', 'p']
  | .eq => ['e', 'q']
  | .ne => ['n', 'e']
  | .set => ['s', 'e', 't']
  | .add => ['a', 'd', 'd']
  | .or => ['o', 'r']
  | .and => ['a', 'n', 'd']
  | .xor => ['x', 'o', 'r']
  | .addc => ['a', 'd', 'd', 'c']
  | .sub => ['s', 'u', 'b']
  | .shr => ['s', 'h', 'r']
  | .subr => ['s', 'u', 'b', 'r']
  | .shl => ['s', 'h', 'l']
  | .rand => ['r', 'a', 'n', 'd']
  | .index => ['i', 'n', 'd', 'e', 'x']
  | .timer => ['t', 'i', 'm', 'e', 'r']
  | .get => ['g', 'e', 't']
  | .key => ['k', 'e', 'y']
  | .await => ['a', 'w', 'a', 'i', 't']
  | .delay => ['d', 'e', 'l', 'a', 'y']
  | .sound => ['s', 'o', 'u', 'n', 'd']
  | .font => ['f', 'o', 'n', 't']

/-- A token: a hexadecimal literal with its number of digits, a register reference, a bare word; or what is
none of them (R100). -/
inductive Token where
  | hex (digits value : Nat)
  | reg (r : Nibble)
  | word (k : Keyword)
  | badHex (text : List Char)
  | unknown (text : List Char)
deriving DecidableEq, Repr

/-- The digit of a value below 16, in upper case (R100: "one hex digit"). -/
def hexChar (n : Nat) : Char :=
  Char.ofNat (if n < 10 then '0'.toNat + n else 'A'.toNat + (n - 10))

/-- The value whose digit `c` is, in either case (log entry 12). -/
def hexDigit (c : Char) : Option Nat :=
  (List.range 16).find? (fun d => c == hexChar d || c == (hexChar d).toLower)

/-- The value of a row of digits read on from `acc`. -/
def hexValue (acc : Nat) (cs : List Char) : Option Nat :=
  match cs with
  | [] => some acc
  | c :: rest =>
    match hexDigit c with
    | some d => hexValue (16 * acc + d) rest
    | none => none

/-- The low `digits` hexadecimal digits of a value. -/
def hexText (digits value : Nat) : List Char :=
  match digits with
  | 0 => []
  | d + 1 => hexChar (value / 16 ^ d % 16) :: hexText d value

/-- White space between tokens (R100). -/
def isBlank (c : Char) : Bool := c == ' ' || c == '\t'

/-- "A line is split on whitespace" (R100); `cur` is the word being read, last character first. -/
def splitWords (cur : List Char) (cs : List Char) : List (List Char) :=
  match cs with
  | [] => if cur.isEmpty then [] else [cur.reverse]
  | c :: rest =>
    if isBlank c then
      if cur.isEmpty then splitWords [] rest else cur.reverse :: splitWords [] rest
    else splitWords (c :: cur) rest

/-- A word that is no hexadecimal literal and no register: a keyword or nothing known. -/
def classifyWord (w : List Char) : Token :=
  match keywords.find? (fun k => k.spelling == w) with
  | some k => .word k
  | none => .unknown w

/-- The class of a token by its leading characters (R100). -/
def classify (w : List Char) : Token :=
  match w with
  | '0' :: 'x' :: digits =>
    match hexValue 0 digits with
    | some v => if digits.isEmpty then .badHex w else .hex digits.length v
    | none => .badHex w
  | ['V', c] =>
    match hexDigit c with
    | some d => .reg (BitVec.ofNat 4 d)
    | none => .unknown w
  | _ => classifyWord w

/-! ### The source's structured instruction and its encoding (R103) -/

/-- The two timers, as operands. -/
inductive Timer where
  | delay | sound
deriving DecidableEq, Repr

/-- `Target` in "register, delay timer, sound timer" (spec/00_scope.md R6). -/
inductive Target where
  | reg (x : Nibble)
  | timer (which : Timer)
deriving DecidableEq, Repr

/-- `Source` in "immediate byte, register" (spec/00_scope.md R6). -/
inductive Source where
  | imm (kk : Byte)
  | reg (y : Nibble)
deriving DecidableEq, Repr

/-- A "byte-valued" operand of a Branch, "register, immediate, or timer" (spec/41_flow.md). -/
inductive Compared where
  | reg (x : Nibble)
  | imm (kk : Byte)
  | timer (which : Timer)
deriving DecidableEq, Repr

/-- What `I` is set from or advanced by: "an immediate address or a register value" (spec/44_index_font.md). -/
inductive IndexSource where
  | imm (nnn : Addr)
  | reg (x : Nibble)
deriving DecidableEq, Repr

/-- The arithmetic family (spec/42_arithmetic.md), by the keyword of each operation. -/
inductive ArithOp where
  | set | add | or | and | xor | addc | sub | shr | subr | shl | rand
deriving DecidableEq, Repr

/-- The source's `Instruction` as text can build it: it "can hold operand combinations the binary code cannot
express" (R103). -/
inductive Command where
  | clear
  | draw (x y n : Nibble)
  | ret
  | exit
  | sys (nnn : Addr)
  | jump (nnn : Addr) (offset : Option Nibble)
  | call (nnn : Addr) (offset : Option Nibble)
  | branch (equal : Bool) (left right : Compared)
  | arith (op : ArithOp) (target : Target) (source : Source)
  | indexSet (source : IndexSource)
  | indexAdd (source : IndexSource)
  | timerGet (x : Nibble) (which : Timer)
  | keyAwait (x : Nibble)
  | font (x : Nibble)
deriving DecidableEq, Repr

/-- Register target, immediate source: only assign, add-wrapping and randomize are encoded (R90, R103). -/
def ArithOp.encodeImm (op : ArithOp) (x : Nibble) (kk : Byte) : Option Instr :=
  match op with
  | .set => some (.setVxKk x kk)
  | .add => some (.addVxKk x kk)
  | .rand => some (.randVxKk x kk)
  | .or => none
  | .and => none
  | .xor => none
  | .addc => none
  | .sub => none
  | .shr => none
  | .subr => none
  | .shl => none

/-- Register target, register source: all but add-wrapping and randomize are encoded (R90, R103). -/
def ArithOp.encodeReg (op : ArithOp) (x y : Nibble) : Option Instr :=
  match op with
  | .set => some (.setVxVy x y)
  | .or => some (.orVxVy x y)
  | .and => some (.andVxVy x y)
  | .xor => some (.xorVxVy x y)
  | .addc => some (.addcVxVy x y)
  | .sub => some (.subVxVy x y)
  | .shr => some (.shrVxVy x y)
  | .subr => some (.subrVxVy x y)
  | .shl => some (.shlVxVy x y)
  | .add => none
  | .rand => none

/-- Timer target: only assign from a register is encoded (R103). -/
def Timer.encodeSet (which : Timer) (op : ArithOp) (source : Source) : Option Instr :=
  match op, source with
  | .set, .reg x =>
    match which with
    | .delay => some (.setDelay x)
    | .sound => some (.setSound x)
  | _, _ => none

/-- A Branch: a register with an immediate, or two registers. A timer operand and two immediates have no encoding
(R103); an immediate on the left of a register has no spelling in R90, and the model gives it none either
(DESIGN CHOICE, log entry 12). -/
def encodeBranch (equal : Bool) (left right : Compared) : Option Instr :=
  match left, right with
  | .reg x, .imm kk => some (if equal then .skipEqVxKk x kk else .skipNeVxKk x kk)
  | .reg x, .reg y => some (if equal then .skipEqVxVy x y else .skipNeVxVy x y)
  | _, _ => none

/-- The instruction of the core that a structured instruction stands for; none for R103's combinations.
DESIGN CHOICE (log entry 12): `SysCall` of `0E0`, `0EE` and `0FD`, which R96 lets the source's type hold, stays the
value that text names, although the decoder never yields it. -/
def Command.instr (c : Command) : Option Instr :=
  match c with
  | .clear => some .graphicsClear
  | .draw x y n => some (.graphicsDraw x y n)
  | .ret => some .ret
  | .exit => some .exit
  | .sys nnn => some (.sys nnn)
  | .jump nnn none => some (.jump nnn)
  | .jump nnn (some r) => if r = 0x0#4 then some (.jumpV0 nnn) else none
  | .call nnn none => some (.call nnn)
  | .call _ (some _) => none
  | .branch equal left right => encodeBranch equal left right
  | .arith op (.reg x) (.imm kk) => op.encodeImm x kk
  | .arith op (.reg x) (.reg y) => op.encodeReg x y
  | .arith op (.timer which) source => which.encodeSet op source
  | .indexSet (.imm nnn) => some (.indexSet nnn)
  | .indexSet (.reg _) => none
  | .indexAdd (.reg x) => some (.indexAdd x)
  | .indexAdd (.imm _) => none
  | .timerGet x .delay => some (.timerGet x)
  | .timerGet _ .sound => none
  | .keyAwait x => some (.keyAwait x)
  | .font x => some (.fontVx x)

/-! ### Parsing (R101, R102, R103) -/

/-- What the parser expects next, named in a `SyntaxError` (R101). -/
inductive Expected where
  | mnemonic | comparison | register | hexLiteral | registerOrLiteral | registerOrTimer | comparedOperand | endOfLine
  | graphicsOperation | indexOperation | timerOperation | keyOperation
deriving DecidableEq, Repr

/-- The errors of the text layer (R100, R101, R102, R103; spec/60_exceptions.md R235). -/
inductive AsmError where
  /-- `IntSizeError`: a literal that does not fit its operand. -/
  | intSize (e : IntSizeError)
  /-- `SyntaxError`, "naming the expected construct and the actual token found". -/
  | syntaxError (expected : Expected) (found : Option Token)
  /-- `OpCodeSyntaxError`: a malformed raw hexadecimal literal. -/
  | opCodeSyntax
  /-- `InvalidOpCode`: a raw literal that does not decode. -/
  | invalidOpCode (op : OpWord)
  /-- `NoOpcodeError`: an instruction that has no binary form. -/
  | noOpcode
  /-- A meta-command line, "and is not an instruction". -/
  | metaCommand
deriving DecidableEq, Repr

/-- The result of parsing. -/
abbrev Parsed := Except AsmError Instr

/-- The result of reading a line as a structured instruction. -/
abbrev ReadCommand := Except AsmError Command

/-- The token found in place of the expected construct. -/
def unexpected (e : Expected) (ts : List Token) : ReadCommand := .error (.syntaxError e ts.head?)

/-- A literal that fits `width` bits (R100). -/
def fitLiteral {α : Type} (width value : Nat) (next : BitVec width → Except AsmError α) : Except AsmError α :=
  match narrow width value with
  | .ok b => next b
  | .error e => .error (.intSize e)

/-- The end of the line (R101: extra tokens fail). -/
def expectEnd (ts : List Token) (c : Command) : ReadCommand :=
  match ts with
  | [] => .ok c
  | _ => unexpected .endOfLine ts

/-- A register operand, then the rest. -/
def expectReg (ts : List Token) (next : Nibble → List Token → ReadCommand) : ReadCommand :=
  match ts with
  | .reg r :: rest => next r rest
  | _ => unexpected .register ts

/-- A hexadecimal literal operand of `width` bits, then the rest. -/
def expectHex (width : Nat) (ts : List Token) (next : BitVec width → List Token → ReadCommand) : ReadCommand :=
  match ts with
  | .hex _ v :: rest => fitLiteral width v (fun b => next b rest)
  | _ => unexpected .hexLiteral ts

/-- The target of an arithmetic operation, then the rest. -/
def expectTarget (ts : List Token) (next : Target → List Token → ReadCommand) : ReadCommand :=
  match ts with
  | .reg r :: rest => next (.reg r) rest
  | .word .delay :: rest => next (.timer .delay) rest
  | .word .sound :: rest => next (.timer .sound) rest
  | _ => unexpected .registerOrTimer ts

/-- The source of an arithmetic operation, then the rest. -/
def expectSource (ts : List Token) (next : Source → List Token → ReadCommand) : ReadCommand :=
  match ts with
  | .reg r :: rest => next (.reg r) rest
  | .hex _ v :: rest => fitLiteral 8 v (fun kk => next (.imm kk) rest)
  | _ => unexpected .registerOrLiteral ts

/-- An operand of a Branch, then the rest. -/
def expectCompared (ts : List Token) (next : Compared → List Token → ReadCommand) : ReadCommand :=
  match ts with
  | .reg r :: rest => next (.reg r) rest
  | .hex _ v :: rest => fitLiteral 8 v (fun kk => next (.imm kk) rest)
  | .word .delay :: rest => next (.timer .delay) rest
  | .word .sound :: rest => next (.timer .sound) rest
  | _ => unexpected .comparedOperand ts

/-- The operand of `index set` and `index add`, then the rest. -/
def expectIndexSource (ts : List Token) (next : IndexSource → List Token → ReadCommand) : ReadCommand :=
  match ts with
  | .reg r :: rest => next (.reg r) rest
  | .hex _ v :: rest => fitLiteral 12 v (fun nnn => next (.imm nnn) rest)
  | _ => unexpected .registerOrLiteral ts

/-- One register. -/
def readX (ts : List Token) (make : Nibble → Command) : ReadCommand :=
  expectReg ts (fun x rest => expectEnd rest (make x))

/-- An arithmetic operation, "target first, then source" (R101). -/
def readArith (op : ArithOp) (ts : List Token) : ReadCommand :=
  expectTarget ts (fun target rest => expectSource rest (fun source rest' => expectEnd rest' (.arith op target source)))

/-- The two operands of a Branch. -/
def readBranch (equal : Bool) (ts : List Token) : ReadCommand :=
  expectCompared ts (fun left rest => expectCompared rest (fun right rest' => expectEnd rest' (.branch equal left right)))

/-- The operands of `skip`: the comparison first (R90). -/
def readSkip (ts : List Token) : ReadCommand :=
  match ts with
  | .word .eq :: rest => readBranch true rest
  | .word .ne :: rest => readBranch false rest
  | _ => unexpected .comparison ts

/-- The target of `jump` or `call`, and a register that offsets it (R102, R103). -/
def readFlow (ts : List Token) (make : Addr → Option Nibble → Command) : ReadCommand :=
  expectHex 12 ts (fun nnn rest =>
    match rest with
    | .reg r :: rest' => expectEnd rest' (make nnn (some r))
    | _ => expectEnd rest (make nnn none))

/-- The one operand of `index set` and `index add`. -/
def readIndex (ts : List Token) (make : IndexSource → Command) : ReadCommand :=
  expectIndexSource ts (fun source rest => expectEnd rest (make source))

/-- The operand of `timer get` (R90). DESIGN CHOICE (log entry 12): R103's TimerGet of the sound timer, for which
no rule gives a spelling, is written with the timer after the target, `timer get Vx sound`. -/
def readTimerGet (ts : List Token) : ReadCommand :=
  expectReg ts (fun x rest =>
    match rest with
    | .word .sound :: rest' => expectEnd rest' (.timerGet x .sound)
    | _ => expectEnd rest (.timerGet x .delay))

/-- The operands of a draw (R90, R102). -/
def readDraw (ts : List Token) : ReadCommand :=
  expectReg ts (fun x rest => expectReg rest (fun y rest' =>
    expectHex 4 rest' (fun n rest'' => expectEnd rest'' (.draw x y n))))

/-- After `graphics`: `clear`, or `draw` and its operands (R90, R101). -/
def readGraphics (ts : List Token) : ReadCommand :=
  match ts with
  | .word .clear :: rest => expectEnd rest .clear
  | .word .draw :: rest => readDraw rest
  | _ => unexpected .graphicsOperation ts

/-- After `index`: `set` or `add`, and the operand (R90, R101). -/
def readIndexForm (ts : List Token) : ReadCommand :=
  match ts with
  | .word .set :: rest => readIndex rest .indexSet
  | .word .add :: rest => readIndex rest .indexAdd
  | _ => unexpected .indexOperation ts

/-- After `timer`: `get` and its operand (R90). -/
def readTimer (ts : List Token) : ReadCommand :=
  match ts with
  | .word .get :: rest => readTimerGet rest
  | _ => unexpected .timerOperation ts

/-- After `key`: `await` and its operand (R90, R101). -/
def readKey (ts : List Token) : ReadCommand :=
  match ts with
  | .word .await :: rest => readX rest .keyAwait
  | _ => unexpected .keyOperation ts

/-- The operands that follow the first word of a mnemonic (R90, R101); a word that begins none is not expected. -/
def readMnemonic (k : Keyword) (rest : List Token) : ReadCommand :=
  match k with
  | .graphics => readGraphics rest
  | .draw => readDraw rest
  | .ret => expectEnd rest .ret
  | .exit => expectEnd rest .exit
  | .sys => expectHex 12 rest (fun nnn rest' => expectEnd rest' (.sys nnn))
  | .jump => readFlow rest .jump
  | .call => readFlow rest .call
  | .skip => readSkip rest
  | .set => readArith .set rest
  | .add => readArith .add rest
  | .or => readArith .or rest
  | .and => readArith .and rest
  | .xor => readArith .xor rest
  | .addc => readArith .addc rest
  | .sub => readArith .sub rest
  | .shr => readArith .shr rest
  | .subr => readArith .subr rest
  | .shl => readArith .shl rest
  | .rand => readArith .rand rest
  | .index => readIndexForm rest
  | .timer => readTimer rest
  | .key => readKey rest
  | .font => readX rest .font
  | _ => unexpected .mnemonic (.word k :: rest)

/-- A structured instruction from the tokens of a line: the mnemonic, then its operands from left to right; the
first token that does not fit gives the error (R101; DESIGN CHOICE for a line with several, log entry 12). -/
def readCommand (ts : List Token) : ReadCommand :=
  match ts with
  | .word k :: rest => readMnemonic k rest
  | _ => unexpected .mnemonic ts

/-- Encoding what was read: "encoding one fails with `NoOpcodeError`" (R103). -/
def encodeCommand (r : ReadCommand) : Parsed :=
  match r with
  | .error e => .error e
  | .ok c =>
    match c.instr with
    | some i => .ok i
    | none => .error .noOpcode

/-- A raw literal alone on a line: "decode this exact opcode" (R102). -/
def parseRaw (value : Nat) : Parsed :=
  fitLiteral 16 value (fun op =>
    match decode op with
    | .ok i => .ok i
    | .error (.invalidOpCode w) => .error (.invalidOpCode w))

/-- An instruction from the tokens of a line (R101, R102). DESIGN CHOICE (log entry 12): a line is read as a whole
before it is encoded, so that a line with an unencodable form and a second mistake fails by the second mistake, with
`SyntaxError` or `IntSizeError`. -/
def parse (ts : List Token) : Parsed :=
  match ts with
  | [.hex _ v] => parseRaw v
  | [.badHex _] => .error .opCodeSyntax
  | _ => encodeCommand (readCommand ts)

/-- A line of text: a meta-command line (`:` first) is not an instruction (R100). DESIGN CHOICE (log entry 12): an
empty line, of which the rules say nothing, is a `SyntaxError` that expects a mnemonic and finds no token. -/
def parseLine (line : List Char) : Parsed :=
  match splitWords [] line with
  | (':' :: _) :: _ => .error .metaCommand
  | ws => parse (ws.map classify)

/-! ### Rendering (R90, R104) -/

/-- A 12-bit address as a literal of three digits. -/
def tokenNnn (nnn : Addr) : Token := .hex 3 nnn.toNat
/-- A byte as a literal of two digits. -/
def tokenKk (kk : Byte) : Token := .hex 2 kk.toNat
/-- A nibble as a literal of one digit. -/
def tokenN (n : Nibble) : Token := .hex 1 n.toNat

/-- The mnemonic column of R90 "with the fields in hex" (R104). -/
def render (i : Instr) : List Token :=
  match i with
  | .graphicsClear => [.word .graphics, .word .clear]
  | .ret => [.word .ret]
  | .exit => [.word .exit]
  | .sys nnn => [.word .sys, tokenNnn nnn]
  | .jump nnn => [.word .jump, tokenNnn nnn]
  | .call nnn => [.word .call, tokenNnn nnn]
  | .skipEqVxKk x kk => [.word .skip, .word .eq, .reg x, tokenKk kk]
  | .skipNeVxKk x kk => [.word .skip, .word .ne, .reg x, tokenKk kk]
  | .skipEqVxVy x y => [.word .skip, .word .eq, .reg x, .reg y]
  | .setVxKk x kk => [.word .set, .reg x, tokenKk kk]
  | .addVxKk x kk => [.word .add, .reg x, tokenKk kk]
  | .setVxVy x y => [.word .set, .reg x, .reg y]
  | .orVxVy x y => [.word .or, .reg x, .reg y]
  | .andVxVy x y => [.word .and, .reg x, .reg y]
  | .xorVxVy x y => [.word .xor, .reg x, .reg y]
  | .addcVxVy x y => [.word .addc, .reg x, .reg y]
  | .subVxVy x y => [.word .sub, .reg x, .reg y]
  | .shrVxVy x y => [.word .shr, .reg x, .reg y]
  | .subrVxVy x y => [.word .subr, .reg x, .reg y]
  | .shlVxVy x y => [.word .shl, .reg x, .reg y]
  | .skipNeVxVy x y => [.word .skip, .word .ne, .reg x, .reg y]
  | .indexSet nnn => [.word .index, .word .set, tokenNnn nnn]
  | .jumpV0 nnn => [.word .jump, tokenNnn nnn, .reg 0x0#4]
  | .randVxKk x kk => [.word .rand, .reg x, tokenKk kk]
  | .graphicsDraw x y n => [.word .graphics, .word .draw, .reg x, .reg y, tokenN n]
  | .timerGet x => [.word .timer, .word .get, .reg x]
  | .keyAwait x => [.word .key, .word .await, .reg x]
  | .setDelay x => [.word .set, .word .delay, .reg x]
  | .setSound x => [.word .set, .word .sound, .reg x]
  | .indexAdd x => [.word .index, .word .add, .reg x]
  | .fontVx x => [.word .font, .reg x]

/-- The text of a token. -/
def Token.text (t : Token) : List Char :=
  match t with
  | .hex digits value => '0' :: 'x' :: hexText digits value
  | .reg r => ['V', hexChar r.toNat]
  | .word k => k.spelling
  | .badHex cs => cs
  | .unknown cs => cs

/-- The words of a line with one blank between them. -/
def joinWords (ws : List (List Char)) : List Char :=
  match ws with
  | [] => []
  | [w] => w
  | w :: rest => w ++ ' ' :: joinWords rest

/-- The text of an instruction (R104). -/
def renderLine (i : Instr) : List Char := joinWords ((render i).map Token.text)

/-- An opcode's raw hexadecimal form, `0xHHHH` (R102, R104). -/
def renderRaw (op : OpWord) : List Char := (Token.hex 4 op.toNat).text

end Sys2Proof.Machine
end

