-- ==== Sys2Proof/Machine/HostOps.lean ====
section
/-! DEFINITION. The host operations between ticks: Reset, Load, LoadRom, UnloadRom, Inject (spec/70_reset_and_hazards.md
R260 to R267), as functions and as data, sessions of them, and the boot sequence (R264). -/

namespace Sys2Proof.Machine

/-- `Reset()`, R260: every piece of the spec's state at its reset value; the configuration is unchanged, and so
are the inputs that are still to come (log entry 11). -/
def hostReset (s : State) : State :=
  { State.resetWith s.config with keyInputs := s.keyInputs, ticks := s.ticks, draws := s.draws }

/-- The copy of `Load` from address `a` on: bytes that would fall past `0xFFF` are dropped (R261). -/
def State.loadBytes (s : State) (a : Nat) (bytes : List Byte) : State :=
  match bytes with
  | [] => s
  | b :: rest => if a < 4096 then (s.memWrite (BitVec.ofNat 12 a) b).loadBytes (a + 1) rest else s

/-- `Load(offset, bytes)`, R261. -/
def hostLoad (offset : Addr) (bytes : List Byte) (s : State) : State := s.loadBytes offset.toNat bytes

/-- `LoadRom(offset, bytes)`, R262: fatal with a ROM loaded; the recorded length is the number of bytes copied. -/
def hostLoadRom (offset : Addr) (bytes : List Byte) (s : State) : Outcome :=
  match s.rom with
  | some _ => raise .doubleLoad
  | none =>
    done ((hostLoad offset bytes s).setRom (some ⟨offset, min bytes.length (4096 - offset.toNat)⟩))

/-- `UnloadRom()`, R263: fatal with no ROM loaded; the recorded range becomes `0x00`. -/
def hostUnloadRom (s : State) : Outcome :=
  match s.rom with
  | none => raise .unloadOfNothing
  | some r => done ((hostLoad r.start (List.replicate r.len 0x00#8) s).setRom none)

/-- `Inject(op)`, R266: decode and the execute step alone, "with no fetch, no timer decrement and no pc advance". -/
def hostInject (op : OpWord) (s : State) : Outcome :=
  match decode op with
  | .error e => raise (decodeFault e)
  | .ok i => exec i s

/-- The host's operations that change the state (R267). Reading state changes nothing (R265). -/
inductive HostOp where
  | tick (keyIn : Option Nibble)
  | reset
  | load (offset : Addr) (bytes : List Byte)
  | loadRom (offset : Addr) (bytes : List Byte)
  | unloadRom
  | inject (op : OpWord)
deriving DecidableEq, Repr

/-- An operation in a run that has not ended. -/
def applyHostOp (op : HostOp) (s : State) : Outcome :=
  match op with
  | .tick keyIn => tick keyIn s
  | .reset => done (hostReset s)
  | .load offset bytes => done (hostLoad offset bytes s)
  | .loadRom offset bytes => hostLoadRom offset bytes s
  | .unloadRom => hostUnloadRom s
  | .inject w => hostInject w s

/-- One host operation: after `Exit` "the only defined continuation is `reset`" (R240, spec/40_tick_cycle.md R129;
log entry 5). -/
def hostStep (op : HostOp) (s : State) : Outcome :=
  if s.exited && (op != .reset) then .refused .runEnded else applyHostOp op s

/-- Where the host stands between two operations: the machine runs on in a state, or it has stopped. Of a stop it
keeps the state before the operation that stopped it, from which `Reset` takes the configuration and the inputs
to come and nothing else. -/
inductive Session where
  | running (s : State)
  | faulted (f : Fault) (before : State)
  | refused (r : Refusal) (before : State)
deriving DecidableEq, Repr

/-- The state that `Reset` is applied to. -/
def Session.base (c : Session) : State :=
  match c with
  | .running s => s
  | .faulted _ s => s
  | .refused _ s => s

/-- The last outcome of a session. -/
def Session.outcome (c : Session) : Outcome :=
  match c with
  | .running s => done s
  | .faulted f _ => raise f
  | .refused r _ => .refused r

/-- A session after an operation that had an outcome in a running machine. -/
def Session.after (before : State) (o : Outcome) : Session :=
  match o with
  | .next t => .running t
  | .fault f => .faulted f before
  | .refused r => .refused r before

/-- An operation other than `Reset`: "no later step clears the fault" (spec/60_exceptions.md R236). -/
def Session.proceed (op : HostOp) (c : Session) : Session :=
  match c with
  | .running s => .after s (hostStep op s)
  | .faulted f s => .faulted f s
  | .refused r s => .refused r s

/-- One operation in a session. `Reset` "may be applied in any state, including after `Exit` or a fault; it cannot
fail" (R260), and is the only continuation after a stop (R240, spec/40_tick_cycle.md R129). -/
def Session.apply (op : HostOp) (c : Session) : Session :=
  if op = .reset then .running (hostReset c.base) else c.proceed op

/-- A sequence of host operations in a session. -/
def Session.run (ops : List HostOp) (c : Session) : Session :=
  match ops with
  | [] => c
  | op :: rest => (c.apply op).run rest

/-- The outcome of a sequence of host operations from a state: after a stop nothing but a `Reset` goes on (R267,
R268). -/
def hostRun (ops : List HostOp) (s : State) : Outcome := ((Session.running s).run ops).outcome

/-- The boot sequence of R264: `Reset(); LoadRom(addr, bytes); Inject(0x1000 | addr)`. -/
def bootOps (addr : Addr) (bytes : List Byte) : List HostOp :=
  [.reset, .loadRom addr bytes, .inject (0x1000#16 ||| addr.setWidth 16)]

/-- A key given as an integer: a key above 15 is an `IntSizeError` (spec/60_exceptions.md R235). -/
def keyOfNat (k : Nat) : Except IntSizeError Nibble := narrow 4 k

/-- A load address given as an integer: above `0xFFF` it is an `IntSizeError` (R235). -/
def addrOfNat (a : Nat) : Except IntSizeError Addr := narrow 12 a

end Sys2Proof.Machine
end

