-- ==== Sys2Proof/Safety.lean ====
section
/-! DEFINITION. What holds of every reachable state (spec/10_state.md R35) and what a safe and a well-ended step are
(spec/60_exceptions.md R236). -/

namespace Sys2Proof.Machine

/-- The constraint of spec/00_scope.md R5: `FONT_BASE + 80 <= 0x200`. -/
def configLegal (c : Config) : Bool := decide (c.fontBase.toNat + 80 ≤ 0x200)

/-- "every display byte is `0x00` or `0xFF`" (R35). -/
def pixelsOnOff (d : List Host.Cell) : Bool := d.all (fun c => c.2 == 0x00#8 || c.2 == 0xFF#8)

/-- The loaded-ROM record names a range inside the 4096 bytes (R30, R262). -/
def romInMemory (r : Option RomRange) : Bool :=
  match r with
  | none => true
  | some range => decide (range.start.toNat + range.len ≤ 4096)

/-- The invariant of reachable states: memory and display in canonical form, display bytes `0x00` or `0xFF`
(R35), the loaded-ROM record inside memory (R262), a legal configuration (R5). The other bounds of R35 are the
types of the fields. -/
def State.inv (s : State) : Bool :=
  Memory.wf s.config s.mem && Display.wf s.disp && pixelsOnOff s.disp && romInMemory s.rom && configLegal s.config

/-- A state the host can bring about from reset, under some legal configuration, by ticks with any keys and by
its other operations (R35). -/
def State.reachable (s : State) : Prop :=
  ∃ c ops, configLegal c = true ∧ hostRun ops (State.resetWith c) = .next s

/-! ### Frames: what an instruction leaves unchanged -/

/-- The parts of the state that an execute step may change, besides the general registers
(spec/10_state.md R36), and the model's own counter of draws and end mark. -/
inductive Part where
  | pc | i | dt | st | stack | disp | draws | exited
deriving DecidableEq, Repr

/-- From `s` to `t` nothing is changed but the registers in `regs` and the parts in `parts`: every other
register and part, every byte of memory, the key, the ROM record, the configuration and the inputs to come
are as before. -/
def unchangedBut (regs : List Nibble) (parts : List Part) (s t : State) : Prop :=
  (∀ z, z ∉ regs → t.reg z = s.reg z) ∧
  (.pc ∉ parts → t.pc = s.pc) ∧
  (.i ∉ parts → t.i = s.i) ∧
  (.dt ∉ parts → t.dt = s.dt) ∧
  (.st ∉ parts → t.st = s.st) ∧
  (.stack ∉ parts → t.stack = s.stack ∧ t.sp = s.sp) ∧
  (.disp ∉ parts → ∀ p, t.pixel p = s.pixel p) ∧
  (.draws ∉ parts → t.draws = s.draws) ∧
  (.exited ∉ parts → t.exited = s.exited) ∧
  (∀ a, t.memRead a = s.memRead a) ∧
  t.key = s.key ∧ t.rom = s.rom ∧ t.config = s.config ∧ t.keyInputs = s.keyInputs ∧ t.ticks = s.ticks

/-- A step that does not stop with a fault: "a claim about a program takes no fault as a premise" (R236). -/
def noFault (o : Outcome) : Bool :=
  match o with
  | .fault _ => false
  | .next _ => true
  | .refused _ => true

/-- A tick that ends the run well: exactly when its outcome is `Exit` (spec/70_reset_and_hazards.md R268). -/
def endsWell (keyIn : Option Nibble) (s : State) : Bool := tickOutcome keyIn s == some .exit

end Sys2Proof.Machine
end

