-- ==== Sys2Proof/Certificates/Slice0/Obligations.lean ====
section
/-! DEFINITION. The statements about the model, each from the numbered rules of spec/ that its docstring names, and the few
definitions they are stated with. -/

namespace Sys2Proof.Machine

/-! ### What the statements are said with -/

/-- The next state of an outcome changed by `f`; a stop stays as it is. -/
def mapNext (f : State → State) (o : Outcome) : Outcome :=
  match o with
  | .next t => .next (f t)
  | .fault r => .fault r
  | .refused r => .refused r

/-- The register an instruction names as its destination `x` (spec/42_arithmetic.md, spec/45_key_and_system.md R220). -/
def destination (i : Instr) : Option Nibble :=
  match i with
  | .setVxKk x _ => some x
  | .addVxKk x _ => some x
  | .setVxVy x _ => some x
  | .orVxVy x _ => some x
  | .andVxVy x _ => some x
  | .xorVxVy x _ => some x
  | .addcVxVy x _ => some x
  | .subVxVy x _ => some x
  | .shrVxVy x _ => some x
  | .subrVxVy x _ => some x
  | .shlVxVy x _ => some x
  | .randVxKk x _ => some x
  | .timerGet x => some x
  | .keyAwait x => some x
  | _ => none

/-- The instructions that write `VF` as a side effect (spec/10_state.md R22, the table). -/
def writesFlag (i : Instr) (s : State) : Bool :=
  match i with
  | .addcVxVy _ _ => true
  | .subVxVy _ _ => true
  | .subrVxVy _ _ => true
  | .shrVxVy _ _ => true
  | .shlVxVy _ _ => true
  | .graphicsDraw _ _ _ => s.config.drawWritesVf
  | _ => false

/-- The writers of `I` (spec/10_state.md R24, R36). -/
def writesIndex (i : Instr) : Bool :=
  match i with
  | .indexSet _ => true
  | .indexAdd _ => true
  | .fontVx _ => true
  | _ => false

/-- The writers of the stack file (R26, R36). -/
def writesStack (i : Instr) : Bool :=
  match i with
  | .call _ => true
  | .ret => true
  | _ => false

/-- The writers of the display (R28, R36). -/
def writesDisplay (i : Instr) : Bool :=
  match i with
  | .graphicsClear => true
  | .graphicsDraw _ _ _ => true
  | _ => false

/-- The writers of the delay timer (R25, R36). -/
def writesDelay (i : Instr) : Bool :=
  match i with
  | .setDelay _ => true
  | _ => false

/-- The writers of the sound timer (R25, R36). -/
def writesSound (i : Instr) : Bool :=
  match i with
  | .setSound _ => true
  | _ => false

/-- The writers of `pc` in the execute step (R23, R36). -/
def writesPc (i : Instr) : Bool :=
  match i with
  | .jump _ => true
  | .jumpV0 _ => true
  | .call _ => true
  | .ret => true
  | .skipEqVxKk _ _ => true
  | .skipNeVxKk _ _ => true
  | .skipEqVxVy _ _ => true
  | .skipNeVxVy _ _ => true
  | .keyAwait _ => true
  | _ => false

/-- The instructions whose rules read a parameter: shift, Draw, font, SysCall (spec/10_state.md R31). -/
def readsParameter (i : Instr) : Bool :=
  match i with
  | .shrVxVy _ _ => true
  | .shlVxVy _ _ => true
  | .graphicsDraw _ _ _ => true
  | .fontVx _ => true
  | .sys _ => true
  | _ => false

/-- AwaitKey, the only reader of `key` (R29, R36). -/
def readsKey (i : Instr) : Bool :=
  match i with
  | .keyAwait _ => true
  | _ => false

/-- `pc` after the tick of an instruction fetched at `a`, from the state before the tick (the table of R23). -/
def pcAfter (keyIn : Option Nibble) (a : Addr) (s : State) (i : Instr) : Addr :=
  match i with
  | .jump nnn => nnn
  | .jumpV0 nnn => BitVec.ofNat 12 (nnn.toNat + (s.reg 0x0#4).toNat)
  | .call nnn => nnn
  | .ret => (s.stack[s.sp.val - 1]?).getD 0x000#12
  | .skipEqVxKk x kk => if s.reg x = kk then a + 4 else a + 2
  | .skipNeVxKk x kk => if s.reg x ≠ kk then a + 4 else a + 2
  | .skipEqVxVy x y => if s.reg x = s.reg y then a + 4 else a + 2
  | .skipNeVxVy x y => if s.reg x ≠ s.reg y then a + 4 else a + 2
  | .keyAwait _ => if keyIn = none then a else a + 2
  | _ => a + 2

/-- The words of R97: those that select no row of the opcode map. -/
def invalidWord (op : OpWord) : Prop :=
  (op.extractLsb' 12 4 = 0x5#4 ∧ op.extractLsb' 0 4 ≠ 0x0#4) ∨
  (op.extractLsb' 12 4 = 0x8#4 ∧ 0x8#4 ≤ op.extractLsb' 0 4 ∧ op.extractLsb' 0 4 ≠ 0xE#4) ∨
  (op.extractLsb' 12 4 = 0x9#4 ∧ op.extractLsb' 0 4 ≠ 0x0#4) ∨
  (op.extractLsb' 12 4 = 0xE#4) ∨
  (op.extractLsb' 12 4 = 0xF#4 ∧ op.extractLsb' 0 8 ∉ [0x07#8, 0x0A#8, 0x15#8, 0x18#8, 0x1E#8, 0x29#8])

/-- 1 for a word that does not decode, else 0. -/
def invalidOne (op : OpWord) : Nat :=
  match decode op with
  | .ok _ => 0
  | .error _ => 1

/-- How many of the 4096 words of a family do not decode: over every `x` and every low byte. -/
def invalidInFamily (f : Nibble) : Nat :=
  ((List.range 16).map (fun x => ((List.range 256).map (fun kk =>
    invalidOne ((f ++ BitVec.ofNat 4 x) ++ BitVec.ofNat 8 kk))).sum)).sum

/-- A sprite bit of 1 of the Draw `x y n` lies over the pixel at a column and a row, in the state before it
(spec/43_graphics.md R191, R192, R193). -/
def drawCovers (s : State) (x y n : Nibble) (column row : Nat) : Prop :=
  (s.reg x).toNat % 64 ≤ column ∧ column < (s.reg x).toNat % 64 + 8 ∧
  (s.reg y).toNat % 32 ≤ row ∧ row < (s.reg y).toNat % 32 + n.toNat ∧
  (s.memRead (BitVec.ofNat 12 (s.i.toNat + (row - (s.reg y).toNat % 32)))).getLsbD
    (7 - (column - (s.reg x).toNat % 64)) = true

/-- Such a bit lies over a pixel of the display that is on: a collision (R193). -/
def drawCollides (s : State) (x y n : Nibble) : Prop :=
  ∃ column row, column < 64 ∧ row < 32 ∧ drawCovers s x y n column row ∧ s.pixel (64 * row + column) ≠ 0x00#8

/-- Such a bit lies over a pixel of the display that is off: Draw turns it on. -/
def drawTurnsOn (s : State) (x y n : Nibble) : Prop :=
  ∃ column row, column < 64 ∧ row < 32 ∧ drawCovers s x y n column row ∧ s.pixel (64 * row + column) = 0x00#8

/-- The shift input `s = SHIFT_USES_VY ? V[y] : V[x]` as a number (spec/42_arithmetic.md R177). -/
def shiftOperand (s : State) (x y : Nibble) : Nat :=
  if s.config.shiftUsesVy = true then (s.reg y).toNat else (s.reg x).toNat

/-- The byte of the reset contents of memory at an address: the font in its range, else `0x00` (R33, R34). -/
def isResetMemory (c : Config) (read : Addr → Byte) : Prop :=
  (∀ (d : Fin 16) (j : Fin 5) (a : Addr), a.toNat = c.fontBase.toNat + 5 * d.val + j.val →
    read a = (c.fontData[d.val])[j.val]) ∧
  (∀ a : Addr, (a.toNat < c.fontBase.toNat ∨ c.fontBase.toNat + 80 ≤ a.toNat) → read a = 0x00#8)

/-- Every field of the spec's state at its reset value, under a configuration (the table of R34). -/
def isResetState (c : Config) (t : State) : Prop :=
  isResetMemory c t.memRead ∧ t.pc = 0x000#12 ∧ t.i = 0x000#12 ∧ (∀ x, t.reg x = 0x00#8) ∧
  t.dt = 0x00#8 ∧ t.st = 0x00#8 ∧ t.sp.val = 0 ∧ (∀ j : Fin 16, t.stack[j.val] = 0x000#12) ∧
  (∀ p, t.pixel p = 0x00#8) ∧ t.key = none ∧ t.rom = none ∧ t.config = c ∧ t.exited = false

end Sys2Proof.Machine

open Sys2Proof Sys2Proof.Machine

/-! ### Encoding (spec/30_encoding.md) -/

/-- The words of the decoder table of 95_test_vectors.md 2.1, all of them, decode as listed there: words of every family and
format; and 0xD123 decodes by the fields of R81 under the row of R90 (the numbers are the spec's own decisions D2, D3,
D17, D28, D29, D30, log entry 9). -/
def Obligations.ListedWordsDecodeAsListed : Prop :=
  (decode 0x0000#16 = .ok (.sys 0x000#12) ∧ decode 0x00E0#16 = .ok .graphicsClear ∧ decode 0x00EE#16 = .ok .ret ∧
   decode 0x00FD#16 = .ok .exit ∧ decode 0x00FE#16 = .ok (.sys 0x0FE#12) ∧ decode 0x00E1#16 = .ok (.sys 0x0E1#12) ∧
   decode 0x0FFF#16 = .ok (.sys 0xFFF#12) ∧ decode 0x1ABC#16 = .ok (.jump 0xABC#12) ∧
   decode 0x2ABC#16 = .ok (.call 0xABC#12) ∧ decode 0x3AFF#16 = .ok (.skipEqVxKk 0xA#4 0xFF#8) ∧
   decode 0x4A00#16 = .ok (.skipNeVxKk 0xA#4 0x00#8) ∧ decode 0x5AB0#16 = .ok (.skipEqVxVy 0xA#4 0xB#4) ∧
   decode 0x6F80#16 = .ok (.setVxKk 0xF#4 0x80#8) ∧ decode 0x7F01#16 = .ok (.addVxKk 0xF#4 0x01#8)) ∧
  (decode 0x8AB7#16 = .ok (.subrVxVy 0xA#4 0xB#4) ∧ decode 0x8ABE#16 = .ok (.shlVxVy 0xA#4 0xB#4) ∧
   decode 0x9AB0#16 = .ok (.skipNeVxVy 0xA#4 0xB#4) ∧ decode 0xAFFF#16 = .ok (.indexSet 0xFFF#12) ∧
   decode 0xBFFF#16 = .ok (.jumpV0 0xFFF#12) ∧ decode 0xC0FF#16 = .ok (.randVxKk 0x0#4 0xFF#8) ∧
   decode 0xD000#16 = .ok (.graphicsDraw 0x0#4 0x0#4 0x0#4) ∧ decode 0xF007#16 = .ok (.timerGet 0x0#4) ∧
   decode 0xF00A#16 = .ok (.keyAwait 0x0#4) ∧ decode 0xF015#16 = .ok (.setDelay 0x0#4) ∧
   decode 0xF018#16 = .ok (.setSound 0x0#4) ∧ decode 0xF01E#16 = .ok (.indexAdd 0x0#4) ∧
   decode 0xF029#16 = .ok (.fontVx 0x0#4) ∧ decode 0xFF29#16 = .ok (.fontVx 0xF#4)) ∧
  (decode 0x5AB1#16 = .error (.invalidOpCode 0x5AB1#16) ∧ decode 0x8AB8#16 = .error (.invalidOpCode 0x8AB8#16) ∧
   decode 0x8ABF#16 = .error (.invalidOpCode 0x8ABF#16) ∧ decode 0x9AB5#16 = .error (.invalidOpCode 0x9AB5#16) ∧
   decode 0xE09E#16 = .error (.invalidOpCode 0xE09E#16) ∧ decode 0xE0A1#16 = .error (.invalidOpCode 0xE0A1#16) ∧
   decode 0xEFFF#16 = .error (.invalidOpCode 0xEFFF#16) ∧ decode 0xF033#16 = .error (.invalidOpCode 0xF033#16) ∧
   decode 0xF055#16 = .error (.invalidOpCode 0xF055#16) ∧ decode 0xF065#16 = .error (.invalidOpCode 0xF065#16) ∧
   decode 0xF000#16 = .error (.invalidOpCode 0xF000#16) ∧ decode 0xF008#16 = .error (.invalidOpCode 0xF008#16) ∧
   decode 0xF01F#16 = .error (.invalidOpCode 0xF01F#16) ∧ decode 0xF0FF#16 = .error (.invalidOpCode 0xF0FF#16)) ∧
  decode 0xD123#16 = .ok (.graphicsDraw 0x1#4 0x2#4 0x3#4)

/-- For every well-formed instruction, `Decode(Encode(i)) = i` (R96, the direction from the instruction). -/
def Obligations.DecodeOfEncodeIsIdentity : Prop :=
  ∀ i : Instr, i.wellFormed = true → decode (encode i) = .ok i

/-- R96: for every word that decodes, `Encode(Decode(op)) = op` bit for bit; the decoder never yields the three
SysCalls whose words are Clear, Return and Exit, and those encode to these words. -/
def Obligations.EncodeOfDecodeIsIdentity : Prop :=
  (∀ (op : OpWord) (i : Instr), decode op = .ok i → encode i = op ∧ i.wellFormed = true) ∧
  decode (encode (.sys 0x0E0#12)) = .ok .graphicsClear ∧ decode (encode (.sys 0x0EE#12)) = .ok .ret ∧
  decode (encode (.sys 0x0FD#12)) = .ok .exit

/-- The decoder's instruction belongs to the first row of the opcode map of R90 that the word selects, and a word that selects
none is an error (R95; the numbers of the map are the spec's own decisions D2, D3, log entry 9). -/
def Obligations.DecoderPicksFirstSelectedRow : Prop :=
  ∀ op : OpWord,
    (∀ i, decode op = .ok i → selectedRow op = some i.rowNumber) ∧
    (∀ e, decode op = .error e → selectedRow op = none)

/-- The invalid words are those of R97's table, which the spec derives from its opcode map (decisions D29, D30, log entry 9),
and the error carries the raw word. -/
def Obligations.InvalidWordsAreTheListedOnes : Prop :=
  ∀ op : OpWord,
    (invalidWord op → decode op = .error (.invalidOpCode op)) ∧
    (¬ invalidWord op → ∃ i, decode op = .ok i)

/-- "Total 17568 invalid words", by family 3840, 1792, 3840, 4096 and 4000 (R97, derived there from R90). -/
def Obligations.InvalidWordCountIs17568 : Prop :=
  invalidInFamily 0x5#4 = 3840 ∧ invalidInFamily 0x8#4 = 1792 ∧ invalidInFamily 0x9#4 = 3840 ∧
  invalidInFamily 0xE#4 = 4096 ∧ invalidInFamily 0xF#4 = 4000 ∧
  ((List.range 16).map (fun f => invalidInFamily (BitVec.ofNat 4 f))).sum = 17568

/-- R104: rendering a decoded instruction and parsing the text gives it back, and so does parsing the word's raw
hexadecimal form. -/
def Obligations.TextOfInstructionParsesBack : Prop :=
  ∀ (op : OpWord) (i : Instr), decode op = .ok i →
    parseLine (renderLine i) = .ok i ∧ parseLine (renderRaw op) = .ok i

/-- A raw literal that does not decode is `InvalidOpCode` (R102, the spec's own decision D25), and one above 16 bits is
`IntSizeError` (R100); the token forms are the model's (log entry 12). -/
def Obligations.RawLiteralErrorsAreNamed : Prop :=
  (∀ (op : OpWord), invalidWord op → parseLine (renderRaw op) = .error (.invalidOpCode op)) ∧
  (∀ digits value, 65536 ≤ value → parse [.hex digits value] = .error (.intSize ⟨16, value⟩))

/-! ### The tick (spec/40_tick_cycle.md) -/

/-- R127, the tick as one piece of pseudocode, in a run that has not ended: the bytes at `pc` decode to `i`, the key is
latched, both timers count, `pc` moves on by 2, `i` is executed; a word that does not decode ends the tick. -/
def Obligations.TickFollowsThePseudocode : Prop :=
  ∀ (keyIn : Option Nibble) (s : State), s.exited = false →
    (∀ i, decode (s.memRead s.pc ++ s.memRead (s.pc + 1)) = .ok i →
      tick keyIn s = exec i
        { s with
          key := keyIn
          dt := if s.dt = 0x00#8 then s.dt else s.dt - 1
          st := if s.st = 0x00#8 then s.st else s.st - 1
          pc := s.pc + 2 }) ∧
    (∀ op, decode (s.memRead s.pc ++ s.memRead (s.pc + 1)) = .error (.invalidOpCode op) →
      tick keyIn s = .fault (.invalidOpCode op))

/-- A step is the tick with the next key: where the bytes at `pc` decode to `i`, it is `i` executed in the state in which
the key is latched, both timers have counted and `pc` has moved on by 2. The key is the host's next one, else a free
value, and the model's key inputs are used up (the model's choice, log entry 3). -/
def Obligations.StepRunsTheDecodedInstruction : Prop :=
  ∀ s : State,
    (s.exited = false → ∀ i, decode (s.memRead s.pc ++ s.memRead (s.pc + 1)) = .ok i →
      step s = exec i
        { s with
          key := s.nextKey
          dt := if s.dt = 0x00#8 then s.dt else s.dt - 1
          st := if s.st = 0x00#8 then s.st else s.st - 1
          pc := s.pc + 2
          keyInputs := s.keyInputs.tail
          ticks := s.ticks + 1 }) ∧
    step s = tick s.nextKey { s with keyInputs := s.keyInputs.tail, ticks := s.ticks + 1 } ∧
    (∀ k rest, s.keyInputs = k :: rest → s.nextKey = k) ∧
    (s.keyInputs = [] → s.nextKey = Config.freeKey s.ticks)

/-- The fetch reads the byte at `pc` as the high byte and the one at `a12(pc + 1)` as the low byte (R122): the byte order is
the spec's own decision D5 (R50), the wrap its decision D7 (R53), log entry 9. -/
def Obligations.FetchIsBigEndianAndWraps : Prop :=
  ∀ s : State, s.fetchWord.toNat =
    256 * (s.memRead s.pc).toNat + (s.memRead (BitVec.ofNat 12 ((s.pc.toNat + 1) % 4096))).toNat

/-- R231: an invalid word ends the tick with its fault; the state is that before the tick but for the latched key;
a repeated tick gives the same outcome. -/
def Obligations.InvalidOpcodeLeavesTheStateAsItWas : Prop :=
  ∀ (keyIn : Option Nibble) (s : State), s.exited = false → invalidWord s.fetchWord →
    tick keyIn s = .fault (.invalidOpCode s.fetchWord) ∧
    stateAfterTick keyIn s = some { s with key := keyIn } ∧
    (∀ keyIn', tick keyIn' { s with key := keyIn } = .fault (.invalidOpCode s.fetchWord))

/-- After every tick that goes on or exits, each timer is one lower (0 stays 0), unless the instruction is the one that writes
that timer, which then holds the register's value (R124, R171, R172). -/
def Obligations.TimersCountOncePerTick : Prop :=
  ∀ (keyIn : Option Nibble) (s t : State) (i : Instr), decode s.fetchWord = .ok i → tick keyIn s = .next t →
    (writesDelay i = false → t.dt.toNat = s.dt.toNat - 1) ∧
    (writesSound i = false → t.st.toNat = s.st.toNat - 1) ∧
    (∀ x, i = .setDelay x → t.dt = s.reg x) ∧ (∀ x, i = .setSound x → t.st = s.reg x)

/-- The table of R23: `pc` after a tick that goes on or exits; that it wraps at the top of memory is the spec's own decision D7
(log entry 9). -/
def Obligations.PcAfterTickFollowsTheTable : Prop :=
  ∀ (keyIn : Option Nibble) (s t : State) (i : Instr), decode s.fetchWord = .ok i → tick keyIn s = .next t →
    t.pc = pcAfter keyIn s.pc s i

/-- Each outcome of a tick has its one cause (R238, derived there) and its code (R230, the spec's own decision D31); no tick of
a run that has not ended is without an outcome. The sixth outcome is the fault of the model of R222 (log entry 9). -/
def Obligations.OutcomesHaveExclusiveCauses : Prop :=
  (∀ (keyIn : Option Nibble) (s : State), s.exited = false →
    (tickOutcome keyIn s ≠ none) ∧
    (∀ op, tickOutcome keyIn s = some (.invalidOpCode op) ↔ (op = s.fetchWord ∧ invalidWord op)) ∧
    (tickOutcome keyIn s = some .exit ↔ decode s.fetchWord = .ok .exit) ∧
    (tickOutcome keyIn s = some .stackOverflow ↔ ∃ nnn, decode s.fetchWord = .ok (.call nnn) ∧ s.sp.val = 16) ∧
    (tickOutcome keyIn s = some .stackUnderflow ↔ decode s.fetchWord = .ok .ret ∧ s.sp.val = 0) ∧
    (∀ nnn, tickOutcome keyIn s = some (.sysCallFault nnn) ↔
      decode s.fetchWord = .ok (.sys nnn) ∧ s.config.sysCallFaults = true)) ∧
  TickOutcome.ok.code = some 0 ∧ TickOutcome.exit.code = some 1 ∧
  (∀ op, (TickOutcome.invalidOpCode op).code = some 2) ∧
  TickOutcome.stackOverflow.code = some 3 ∧ TickOutcome.stackUnderflow.code = some 4

/-- While no key comes, every tick of an AwaitKey leaves the same `pc` and the timers run down to 0; the run goes on for any
number of ticks (R128). -/
def Obligations.WaitingForAKeyStaysAtOnePc : Prop :=
  ∀ (k : Nat) (x : Nibble) (s : State), s.exited = false → decode s.fetchWord = .ok (.keyAwait x) →
    ∃ t, hostRun (List.replicate k (.tick none)) s = .next t ∧ t.pc = s.pc ∧
      t.dt.toNat = s.dt.toNat - k ∧ t.st.toNat = s.st.toNat - k ∧ t.fetchWord = s.fetchWord ∧
      unchangedBut [] [.dt, .st] s { t with key := s.key }

/-- After a stop only `Reset` goes on, and it always does (R129, R240, R260: the spec's own decision D21, log entry 9).
After `Exit` a tick and every host operation but `Reset` is refused (that the stop is a refusal is the model's choice,
log entry 5). After a fault a run stays at that fault as long as no `Reset` comes, and a `Reset` right after it goes on
from the reset state. -/
def Obligations.OnlyResetFollowsAStop : Prop :=
  (∀ s : State, s.exited = true →
    step s = .refused .runEnded ∧
    (∀ op, op ≠ .reset → hostStep op s = .refused .runEnded) ∧
    ∃ t, hostStep .reset s = .next t ∧ t.exited = false) ∧
  (∀ (op : HostOp) (f : Fault) (rest : List HostOp) (s : State), hostStep op s = .fault f →
    (.reset ∉ rest → hostRun (op :: rest) s = .fault f) ∧
    hostRun (op :: .reset :: rest) s = hostRun rest (hostReset s)) ∧
  (∀ (op : HostOp) (r : Refusal) (rest : List HostOp) (s : State), hostStep op s = .refused r →
    (.reset ∉ rest → hostRun (op :: rest) s = .refused r) ∧
    hostRun (op :: .reset :: rest) s = hostRun rest (hostReset s))

/-! ### Flow (spec/41_flow.md) -/

/-- R140: Jump, its encoding and all it changes. -/
def Obligations.JumpSetsPc : Prop :=
  ∀ (nnn : Addr) (s : State),
    decode (0x1#4 ++ nnn : OpWord) = .ok (.jump nnn) ∧
    ∃ t, exec (.jump nnn) s = .next t ∧ t.pc = nnn ∧ unchangedBut [] [.pc] s t

/-- Jump with offset adds `V0` and wraps modulo 4096 (R141: that it is `V0` and that it wraps are the spec's own decisions
D17 and D7, log entry 9). -/
def Obligations.OffsetJumpAddsV0 : Prop :=
  ∀ (nnn : Addr) (s : State),
    decode (0xB#4 ++ nnn : OpWord) = .ok (.jumpV0 nnn) ∧
    ∃ t, exec (.jumpV0 nnn) s = .next t ∧
      t.pc.toNat = (nnn.toNat + (s.reg 0x0#4).toNat) % 4096 ∧ unchangedBut [] [.pc] s t

/-- R142: Call pushes `pc`, already advanced, and jumps; with 16 entries in use it is `StackOverflow`. -/
def Obligations.CallPushesTheReturnAddress : Prop :=
  ∀ (nnn : Addr) (s : State),
    decode (0x2#4 ++ nnn : OpWord) = .ok (.call nnn) ∧
    (s.sp.val < 16 → ∃ t, exec (.call nnn) s = .next t ∧ t.pc = nnn ∧ t.sp.val = s.sp.val + 1 ∧
      t.stack[s.sp.val]? = some s.pc ∧ (∀ j : Nat, j ≠ s.sp.val → t.stack[j]? = s.stack[j]?) ∧
      unchangedBut [] [.pc, .stack] s t) ∧
    (s.sp.val = 16 → exec (.call nnn) s = .fault .stackOverflow)

/-- Return pops into `pc` and the slot keeps its value, which is the spec's own decision D20 (log entry 9); with an empty stack
it is `StackUnderflow` (R143). -/
def Obligations.ReturnPopsThePc : Prop :=
  decode 0x00EE#16 = .ok .ret ∧
  ∀ s : State,
    (0 < s.sp.val → ∃ t, exec .ret s = .next t ∧ t.sp.val = s.sp.val - 1 ∧
      s.stack[s.sp.val - 1]? = some t.pc ∧ t.stack = s.stack ∧ unchangedBut [] [.pc, .stack] s t) ∧
    (s.sp.val = 0 → exec .ret s = .fault .stackUnderflow)

/-- A Return after a Call brings back `pc` and `sp`, and every part of the state but the stack slot
(R142, R143). -/
def Obligations.ReturnUndoesCall : Prop :=
  ∀ (nnn : Addr) (s : State), s.sp.val < 16 →
    ∃ t u, exec (.call nnn) s = .next t ∧ exec .ret t = .next u ∧ u.pc = s.pc ∧ u.sp = s.sp ∧
      (∀ j : Nat, j ≠ s.sp.val → u.stack[j]? = s.stack[j]?) ∧ unchangedBut [] [.stack] s u

/-- R144 to R147: the four Branches skip exactly when their comparison holds, and change nothing but `pc`. -/
def Obligations.BranchesSkipOnTheirCondition : Prop :=
  ∀ (x y : Nibble) (kk : Byte) (s : State),
    (decode ((0x3#4 ++ x) ++ kk : OpWord) = .ok (.skipEqVxKk x kk) ∧
     decode ((0x4#4 ++ x) ++ kk : OpWord) = .ok (.skipNeVxKk x kk) ∧
     decode ((0x5#4 ++ x) ++ (y ++ 0x0#4) : OpWord) = .ok (.skipEqVxVy x y) ∧
     decode ((0x9#4 ++ x) ++ (y ++ 0x0#4) : OpWord) = .ok (.skipNeVxVy x y) ∧
     (∀ n : Nibble, n ≠ 0x0#4 →
       decode ((0x5#4 ++ x) ++ (y ++ n) : OpWord) = .error (.invalidOpCode ((0x5#4 ++ x) ++ (y ++ n))) ∧
       decode ((0x9#4 ++ x) ++ (y ++ n) : OpWord) = .error (.invalidOpCode ((0x9#4 ++ x) ++ (y ++ n))))) ∧
    (∃ t, exec (.skipEqVxKk x kk) s = .next t ∧ unchangedBut [] [.pc] s t ∧
      t.pc.toNat = if s.reg x = kk then (s.pc.toNat + 2) % 4096 else s.pc.toNat) ∧
    (∃ t, exec (.skipNeVxKk x kk) s = .next t ∧ unchangedBut [] [.pc] s t ∧
      t.pc.toNat = if s.reg x = kk then s.pc.toNat else (s.pc.toNat + 2) % 4096) ∧
    (∃ t, exec (.skipEqVxVy x y) s = .next t ∧ unchangedBut [] [.pc] s t ∧
      t.pc.toNat = if s.reg x = s.reg y then (s.pc.toNat + 2) % 4096 else s.pc.toNat) ∧
    (∃ t, exec (.skipNeVxVy x y) s = .next t ∧ unchangedBut [] [.pc] s t ∧
      t.pc.toNat = if s.reg x = s.reg y then s.pc.toNat else (s.pc.toNat + 2) % 4096)

/-! ### Arithmetic (spec/42_arithmetic.md) -/

/-- R160, R161, R162: assign and wrapping add write the target alone; no flag. -/
def Obligations.AssignAndWrappingAddWriteTheTarget : Prop :=
  ∀ (x y : Nibble) (kk : Byte) (s : State),
    (decode ((0x6#4 ++ x) ++ kk : OpWord) = .ok (.setVxKk x kk) ∧
     decode ((0x7#4 ++ x) ++ kk : OpWord) = .ok (.addVxKk x kk) ∧
     decode ((0x8#4 ++ x) ++ (y ++ 0x0#4) : OpWord) = .ok (.setVxVy x y)) ∧
    (∃ t, exec (.setVxKk x kk) s = .next t ∧ t.reg x = kk ∧ unchangedBut [x] [] s t) ∧
    (∃ t, exec (.addVxKk x kk) s = .next t ∧
      (t.reg x).toNat = ((s.reg x).toNat + kk.toNat) % 256 ∧ unchangedBut [x] [] s t) ∧
    (∃ t, exec (.setVxVy x y) s = .next t ∧ t.reg x = s.reg y ∧ unchangedBut [x] [] s t)

/-- R163, R164, R165: or, and, exclusive or, bit by bit; no flag. -/
def Obligations.BitwiseOperationsActBitByBit : Prop :=
  ∀ (x y : Nibble) (s : State),
    (decode ((0x8#4 ++ x) ++ (y ++ 0x1#4) : OpWord) = .ok (.orVxVy x y) ∧
     decode ((0x8#4 ++ x) ++ (y ++ 0x2#4) : OpWord) = .ok (.andVxVy x y) ∧
     decode ((0x8#4 ++ x) ++ (y ++ 0x3#4) : OpWord) = .ok (.xorVxVy x y)) ∧
    (∃ t, exec (.orVxVy x y) s = .next t ∧ unchangedBut [x] [] s t ∧
      ∀ k, (t.reg x).getLsbD k = ((s.reg x).getLsbD k || (s.reg y).getLsbD k)) ∧
    (∃ t, exec (.andVxVy x y) s = .next t ∧ unchangedBut [x] [] s t ∧
      ∀ k, (t.reg x).getLsbD k = ((s.reg x).getLsbD k && (s.reg y).getLsbD k)) ∧
    (∃ t, exec (.xorVxVy x y) s = .next t ∧ unchangedBut [x] [] s t ∧
      ∀ k, (t.reg x).getLsbD k = ((s.reg x).getLsbD k ^^ (s.reg y).getLsbD k))

/-- The sum modulo 256 and the carry in `VF` (R166), which is written last, so that it wins when `x = 15`: the spec's own
decision D14 (log entry 9). -/
def Obligations.AddWithCarryWritesSumAndCarry : Prop :=
  ∀ (x y : Nibble) (s : State),
    decode ((0x8#4 ++ x) ++ (y ++ 0x4#4) : OpWord) = .ok (.addcVxVy x y) ∧
    ∃ t, exec (.addcVxVy x y) s = .next t ∧
      (x ≠ 0xF#4 → (t.reg x).toNat = ((s.reg x).toNat + (s.reg y).toNat) % 256) ∧
      (t.reg 0xF#4).toNat = (if 255 < (s.reg x).toNat + (s.reg y).toNat then 1 else 0) ∧
      unchangedBut [x, 0xF#4] [] s t

/-- The difference modulo 256 in both operand orders and 1 - borrow in `VF` (R167, R169), which is written last, so that it
wins when `x = 15`: the spec's own decision D14 (log entry 9). -/
def Obligations.SubtractionsWriteDifferenceAndNoBorrow : Prop :=
  ∀ (x y : Nibble) (s : State),
    (decode ((0x8#4 ++ x) ++ (y ++ 0x5#4) : OpWord) = .ok (.subVxVy x y) ∧
     decode ((0x8#4 ++ x) ++ (y ++ 0x7#4) : OpWord) = .ok (.subrVxVy x y)) ∧
    (∃ t, exec (.subVxVy x y) s = .next t ∧
      (x ≠ 0xF#4 → (t.reg x).toNat = ((s.reg x).toNat + 256 - (s.reg y).toNat) % 256) ∧
      (t.reg 0xF#4).toNat = (if (s.reg y).toNat ≤ (s.reg x).toNat then 1 else 0) ∧
      unchangedBut [x, 0xF#4] [] s t) ∧
    (∃ t, exec (.subrVxVy x y) s = .next t ∧
      (x ≠ 0xF#4 → (t.reg x).toNat = ((s.reg y).toNat + 256 - (s.reg x).toNat) % 256) ∧
      (t.reg 0xF#4).toNat = (if (s.reg x).toNat ≤ (s.reg y).toNat then 1 else 0) ∧
      unchangedBut [x, 0xF#4] [] s t)

/-- The shifts by one of the input that `SHIFT_USES_VY` picks (R177), under both settings, with the bit shifted out in `VF`
(R168, R170: the spec's own decision D13), written last (D14, log entry 9). -/
def Obligations.ShiftsWriteResultAndShiftedOutBit : Prop :=
  ∀ (x y : Nibble) (s : State),
    (decode ((0x8#4 ++ x) ++ (y ++ 0x6#4) : OpWord) = .ok (.shrVxVy x y) ∧
     decode ((0x8#4 ++ x) ++ (y ++ 0xE#4) : OpWord) = .ok (.shlVxVy x y)) ∧
    (∃ t, exec (.shrVxVy x y) s = .next t ∧
      (x ≠ 0xF#4 → (t.reg x).toNat = shiftOperand s x y / 2) ∧
      (t.reg 0xF#4).toNat = shiftOperand s x y % 2 ∧ unchangedBut [x, 0xF#4] [] s t) ∧
    (∃ t, exec (.shlVxVy x y) s = .next t ∧
      (x ≠ 0xF#4 → (t.reg x).toNat = 2 * shiftOperand s x y % 256) ∧
      (t.reg 0xF#4).toNat = shiftOperand s x y / 128 ∧ unchangedBut [x, 0xF#4] [] s t)

/-- The free draw, masked by `kk`; the next execution draws afresh (R175: the spec's own decision D16, log entry 9). The draw
is a free value (the model's choice of form, log entry 4): the statement holds for every value of it. -/
def Obligations.RandomizeMasksAFreeDraw : Prop :=
  ∀ (x : Nibble) (kk : Byte) (s : State),
    decode ((0xC#4 ++ x) ++ kk : OpWord) = .ok (.randVxKk x kk) ∧
    ∃ t, exec (.randVxKk x kk) s = .next t ∧
      (∀ k, (t.reg x).getLsbD k = ((Config.freeDraw s.draws).getLsbD k && kk.getLsbD k)) ∧
      t.draws = s.draws + 1 ∧ unchangedBut [x] [.draws] s t

/-- The timer forms, in the execute step (R171, R172, R173; that `Fx07` reads `DT` is the spec's own decision D28, log
entry 9). -/
def Obligations.TimerInstructionsMoveOneByte : Prop :=
  ∀ (x : Nibble) (s : State),
    (decode ((0xF#4 ++ x) ++ 0x07#8 : OpWord) = .ok (.timerGet x) ∧
     decode ((0xF#4 ++ x) ++ 0x15#8 : OpWord) = .ok (.setDelay x) ∧
     decode ((0xF#4 ++ x) ++ 0x18#8 : OpWord) = .ok (.setSound x)) ∧
    (∃ t, exec (.timerGet x) s = .next t ∧ t.reg x = s.dt ∧ unchangedBut [x] [] s t) ∧
    (∃ t, exec (.setDelay x) s = .next t ∧ t.dt = s.reg x ∧ unchangedBut [] [.dt] s t) ∧
    (∃ t, exec (.setSound x) s = .next t ∧ t.st = s.reg x ∧ unchangedBut [] [.st] s t)

/-! ### Graphics (spec/43_graphics.md) -/

/-- R190: Clear turns every display byte off and changes nothing else. -/
def Obligations.ClearTurnsEveryPixelOff : Prop :=
  decode 0x00E0#16 = .ok .graphicsClear ∧
  ∀ s : State, ∃ t, exec .graphicsClear s = .next t ∧ (∀ p, t.pixel p = 0x00#8) ∧ unchangedBut [] [.disp] s t

/-- Draw, pixel by pixel (R191 to R194). A pixel under a sprite bit of 1 goes off if it was on and on (`0xFF`) if it was off;
every other pixel is as before; the sprite is clipped at the right and bottom edges; `VF` is the collision when
`DRAW_WRITES_VF`, and is as before otherwise. The sprite's place in memory, its bit order and the write of `VF` are the
spec's own decisions D8 to D11 (log entry 9). -/
def Obligations.DrawTogglesTheCoveredPixels : Prop :=
  ∀ (x y n : Nibble) (s : State),
    decode ((0xD#4 ++ x) ++ (y ++ n) : OpWord) = .ok (.graphicsDraw x y n) ∧
    ∃ t, exec (.graphicsDraw x y n) s = .next t ∧
      (∀ column row, column < 64 → row < 32 →
        (drawCovers s x y n column row → s.pixel (64 * row + column) = 0x00#8 → t.pixel (64 * row + column) = 0xFF#8) ∧
        (drawCovers s x y n column row → s.pixel (64 * row + column) ≠ 0x00#8 → t.pixel (64 * row + column) = 0x00#8) ∧
        (¬ drawCovers s x y n column row → t.pixel (64 * row + column) = s.pixel (64 * row + column))) ∧
      (∀ p, 2048 ≤ p → t.pixel p = s.pixel p) ∧
      (s.config.drawWritesVf = true → drawCollides s x y n → t.reg 0xF#4 = 0x01#8) ∧
      (s.config.drawWritesVf = true → ¬ drawCollides s x y n → t.reg 0xF#4 = 0x00#8) ∧
      (s.config.drawWritesVf = false → t.reg 0xF#4 = s.reg 0xF#4) ∧
      unchangedBut [0xF#4] [.disp] s t

/-- Drawing the same sprite twice at the same place restores the display (R195 (f)), for displays of `0x00` and
`0xFF` bytes (R35), when Draw does not overwrite its own coordinates. The second Draw reports a collision exactly
when the first one turned a pixel on, which is what R193's blit gives: R195 (f) says so of any visible bit of 1,
which holds where the covered pixels are off before the first Draw (log entry 15). -/
def Obligations.DrawingTwiceRestoresTheDisplay : Prop :=
  ∀ (x y n : Nibble) (s : State), pixelsOnOff s.disp = true →
    ((x ≠ 0xF#4 ∧ y ≠ 0xF#4) ∨ s.config.drawWritesVf = false) →
    ∃ t u, exec (.graphicsDraw x y n) s = .next t ∧ exec (.graphicsDraw x y n) t = .next u ∧
      (∀ p, u.pixel p = s.pixel p) ∧
      (s.config.drawWritesVf = true → drawTurnsOn s x y n → u.reg 0xF#4 = 0x01#8) ∧
      (s.config.drawWritesVf = true → ¬ drawTurnsOn s x y n → u.reg 0xF#4 = 0x00#8)

/-- `Dxy0` draws no row: the display is unchanged and `VF` is 0 when `DRAW_WRITES_VF` (R195 (a), the spec's own decision D12,
log entry 9). -/
def Obligations.DrawOfNoRowsLeavesTheDisplay : Prop :=
  ∀ (x y : Nibble) (s : State), ∃ t, exec (.graphicsDraw x y 0x0#4) s = .next t ∧
    (∀ p, t.pixel p = s.pixel p) ∧
    t.reg 0xF#4 = (if s.config.drawWritesVf = true then 0x00#8 else s.reg 0xF#4) ∧ unchangedBut [0xF#4] [] s t

/-! ### Index, font, key, system (spec/44_index_font.md, spec/45_key_and_system.md) -/

/-- R210, R212: IndexSet and Font write `I` and nothing else; under a legal `FONT_BASE` (R5) the glyph address does not
wrap. -/
def Obligations.IndexSetAndFontWriteIAlone : Prop :=
  ∀ (nnn : Addr) (x : Nibble) (s : State),
    (decode (0xA#4 ++ nnn : OpWord) = .ok (.indexSet nnn) ∧
     decode ((0xF#4 ++ x) ++ 0x29#8 : OpWord) = .ok (.fontVx x)) ∧
    (∃ t, exec (.indexSet nnn) s = .next t ∧ t.i = nnn ∧ unchangedBut [] [.i] s t) ∧
    (∃ t, exec (.fontVx x) s = .next t ∧
      t.i.toNat = (s.config.fontBase.toNat + 5 * ((s.reg x).toNat % 16)) % 4096 ∧
      (configLegal s.config = true → t.i.toNat = s.config.fontBase.toNat + 5 * ((s.reg x).toNat % 16)) ∧
      unchangedBut [] [.i] s t)

/-- IndexAdd adds `V[x]` to `I` modulo 4096 and writes no flag (R211; that it wraps is the spec's own decision D7, log
entry 9). -/
def Obligations.IndexAddWraps : Prop :=
  ∀ (x : Nibble) (s : State),
    decode ((0xF#4 ++ x) ++ 0x1E#8 : OpWord) = .ok (.indexAdd x) ∧
    ∃ t, exec (.indexAdd x) s = .next t ∧ t.i.toNat = (s.i.toNat + (s.reg x).toNat) % 4096 ∧
      unchangedBut [] [.i] s t

/-- AwaitKey copies the latched key, which stays latched (R220: the spec's own decision D22, log entry 9), or goes back to the
same word. -/
def Obligations.AwaitKeyTakesTheKeyOrRewinds : Prop :=
  ∀ (x : Nibble) (s : State),
    decode ((0xF#4 ++ x) ++ 0x0A#8 : OpWord) = .ok (.keyAwait x) ∧
    (∀ k, s.key = some k → ∃ t, exec (.keyAwait x) s = .next t ∧ (t.reg x).toNat = k.toNat ∧
      unchangedBut [x] [] s t) ∧
    (s.key = none → ∃ t, exec (.keyAwait x) s = .next t ∧ t.pc.toNat = (s.pc.toNat + 4096 - 2) % 4096 ∧
      unchangedBut [] [.pc] s t)

/-- Exit ends the run with outcome `Exit`; the execute step writes nothing, and the tick has counted the timers and advanced
`pc` (R221, R232; the number `00FD` is the spec's own decision D3, log entry 9; the mark `exited` is the model's, log
entry 5). -/
def Obligations.ExitEndsTheRun : Prop :=
  decode 0x00FD#16 = .ok .exit ∧
  (∀ s : State, ∃ t, exec .exit s = .next t ∧ t.exited = true ∧ unchangedBut [] [.exited] s t) ∧
  (∀ (keyIn : Option Nibble) (s : State), s.exited = false → s.fetchWord = 0x00FD#16 →
    tickOutcome keyIn s = some .exit ∧
    ∃ t, stateAfterTick keyIn s = some t ∧ t.pc.toNat = (s.pc.toNat + 2) % 4096 ∧
      t.dt.toNat = s.dt.toNat - 1 ∧ t.st.toNat = s.st.toNat - 1 ∧ t.key = keyIn ∧
      unchangedBut [] [.pc, .dt, .st, .exited] s { t with key := s.key })

/-- SysCall does nothing; with `SYSCALL_FAULTS` it is a fault of the model (R222: the spec's own decision D4, log entry 9).
Every word of family 0 other than `00E0`, `00EE`, `00FD` is one. -/
def Obligations.SysCallDoesNothing : Prop :=
  ∀ (nnn : Addr) (s : State),
    (nnn ∉ [0x0E0#12, 0x0EE#12, 0x0FD#12] → decode (0x0#4 ++ nnn : OpWord) = .ok (.sys nnn)) ∧
    (s.config.sysCallFaults = false → exec (.sys nnn) s = .next s) ∧
    (s.config.sysCallFaults = true → exec (.sys nnn) s = .fault (.sysCall nnn))

/-! ### Rules about the whole machine -/

/-- No instruction writes memory (R56, derived there from the instruction rules): no byte of `mem` differs after the execute
step or after a step. -/
def Obligations.NoInstructionWritesMemory : Prop :=
  (∀ (i : Instr) (s t : State), exec i s = .next t → t.mem = s.mem ∧ ∀ a, t.memRead a = s.memRead a) ∧
  (∀ s t : State, step s = .next t → t.mem = s.mem ∧ ∀ a, t.memRead a = s.memRead a)

/-- The execute column of R36, derived there from the instruction rules, row by row: the general registers, `pc`, `I`, the
timers, the stack with `sp`, and the display are changed only by the instructions listed for them; `mem`, the key and the
ROM record by none. -/
def Obligations.ExecuteWritesOnlyWhatTheMatrixAllows : Prop :=
  ∀ (i : Instr) (s t : State), exec i s = .next t →
    (destination i = none → writesFlag i s = false → ∀ z, t.reg z = s.reg z) ∧
    (writesPc i = false → t.pc = s.pc) ∧ (writesIndex i = false → t.i = s.i) ∧
    (writesDelay i = false → t.dt = s.dt) ∧ (writesSound i = false → t.st = s.st) ∧
    (writesStack i = false → t.stack = s.stack ∧ t.sp = s.sp) ∧
    (∀ a, t.memRead a = s.memRead a) ∧
    (writesDisplay i = false → ∀ p, t.pixel p = s.pixel p) ∧
    t.key = s.key ∧ t.rom = s.rom

/-- A register changes only if the instruction names it as its destination, or it is `VF` and the instruction is one of the
table of R22 (R21, R22; for `x = 15` the spec's own decision D14, log entry 9). -/
def Obligations.OnlyTheDestinationAndTheFlagChange : Prop :=
  ∀ (i : Instr) (s t : State) (z : Nibble), exec i s = .next t → destination i ≠ some z →
    (z = 0xF#4 → writesFlag i s = false) → t.reg z = s.reg z

/-- R31: no instruction, tick or host operation changes the configuration, and only shift, Draw, font and SysCall
read it: any other instruction does the same under any other configuration. -/
def Obligations.ConfigurationIsConstantAndReadByFew : Prop :=
  (∀ (i : Instr) (s t : State), exec i s = .next t → t.config = s.config) ∧
  (∀ (op : HostOp) (s t : State), hostStep op s = .next t → t.config = s.config) ∧
  (∀ s t : State, step s = .next t → t.config = s.config) ∧
  (∀ (i : Instr) (c : Config) (s : State), readsParameter i = false →
    exec i { s with config := c } = mapNext (fun t => { t with config := c }) (exec i s))

/-- `key` reaches no instruction but AwaitKey (R29, R36; the spec's own decision D22, log entry 9). -/
def Obligations.KeyReachesOnlyAwaitKey : Prop :=
  ∀ (i : Instr) (k : Option Nibble) (s : State), readsKey i = false →
    exec i { s with key := k } = mapNext (fun t => { t with key := k }) (exec i s)

/-- R25: nothing reads the sound timer: another value of `ST` before the execute step changes nothing after it but
`ST` itself. -/
def Obligations.SoundTimerReachesNothing : Prop :=
  ∀ (i : Instr) (b : Byte) (s : State),
    exec i { s with st := b } =
      mapNext (fun t => if writesSound i = true then t else { t with st := b }) (exec i s)

/-- R30: "no instruction and no step of the tick reads or writes" the ROM record. -/
def Obligations.RomRecordReachesNoTick : Prop :=
  ∀ (keyIn : Option Nibble) (r : Option RomRange) (s : State),
    tick keyIn { s with rom := r } = mapNext (fun t => { t with rom := r }) (tick keyIn s) ∧
    (∀ t, tick keyIn s = .next t → t.rom = s.rom)

/-- Every step keeps the invariant: memory and display in canonical form, display bytes `0x00` or `0xFF` (R35), the ROM
record in memory (R262), a legal configuration (R5). -/
def Obligations.StepKeepsTheStateInvariant : Prop :=
  ∀ s t : State, s.inv = true → step s = .next t → t.inv = true

/-- Every host operation keeps the invariant, in every state that meets it. -/
def Obligations.HostOperationsKeepTheStateInvariant : Prop :=
  ∀ (op : HostOp) (s t : State), s.inv = true → hostStep op s = .next t → t.inv = true

/-- The reset state meets the invariant, under every legal configuration and under that of `State.reset` (whose
values are the spec's defaults and a free `SHIFT_USES_VY`, log entry 2). -/
def Obligations.ResetMeetsTheStateInvariant : Prop :=
  (∀ c : Config, configLegal c = true → (State.resetWith c).inv = true) ∧ State.reset.inv = true

/-- In every state reachable from reset by ticks and host operations, under any legal configuration: `sp <= 16`; `pc`, `I` and
every stack slot below 4096; the key below 16; every display byte `0x00` or `0xFF` (R35, derived there). -/
def Obligations.ReachableStatesMeetTheBounds : Prop :=
  ∀ s : State, s.reachable →
    s.sp.val ≤ 16 ∧ s.pc.toNat < 4096 ∧ s.i.toNat < 4096 ∧ (∀ j : Fin 16, (s.stack[j.val]).toNat < 4096) ∧
    (∀ k, s.key = some k → k.toNat < 16) ∧ (∀ p, s.pixel p = 0x00#8 ∨ s.pixel p = 0xFF#8) ∧ s.inv = true

/-! ### Memory and the host operations (spec/00_scope.md R10, spec/70_reset_and_hazards.md) -/

/-- A byte written reads back, and every other byte is as before; nothing else changes (R10; wrap and byte order there are the
spec's own decisions D5, D7, log entry 9). -/
def Obligations.MemoryWriteReadsBack : Prop :=
  ∀ (s : State) (a q : Addr) (b : Byte),
    (s.memWrite a b).memRead q = (if q = a then b else s.memRead q) ∧
    s.memWrite a b = { s with mem := (s.memWrite a b).mem }

/-- Equal memories are equal data: two canonical memories that read alike at every address are the same list (the
model's choice of form, log entry 7). -/
def Obligations.CanonicalMemoriesThatReadAlikeAreEqual : Prop :=
  ∀ s t : State, t.config = s.config → Memory.wf s.config s.mem = true → Memory.wf t.config t.mem = true →
    (∀ a, t.memRead a = s.memRead a) → t.mem = s.mem

/-- `Reset()` in any state, also after `Exit`, and at the end of any run of host operations, also after a fault: every field
at its reset value, the font in memory, the configuration unchanged; a newly created machine is in the same state (R260,
R33, R34). The values of all fields but `mem`, `pc` and `I` are the spec's own decision D19 (log entry 8). -/
def Obligations.ResetPutsEveryFieldAtItsResetValue : Prop :=
  (∀ s : State, ∃ t, hostStep .reset s = .next t ∧ isResetState s.config t) ∧
  (∀ (ops : List HostOp) (s : State), ∃ t, hostRun (ops ++ [.reset]) s = .next t ∧ isResetState s.config t) ∧
  hostStep .reset State.reset = .next State.reset

/-- R261: `Load` copies byte `i` to `offset + i` up to `0xFFF`, drops the rest, and changes nothing else. -/
def Obligations.LoadCopiesAndTruncates : Prop :=
  ∀ (offset : Addr) (bytes : List Byte) (s : State),
    (∀ (k : Nat) (h : k < bytes.length) (a : Addr), a.toNat = offset.toNat + k →
      (hostLoad offset bytes s).memRead a = bytes[k]) ∧
    (∀ a : Addr, (a.toNat < offset.toNat ∨ offset.toNat + bytes.length ≤ a.toNat) →
      (hostLoad offset bytes s).memRead a = s.memRead a) ∧
    hostLoad offset bytes s = { s with mem := (hostLoad offset bytes s).mem }

/-- `LoadRom` and `UnloadRom`: the two fatal errors, the record, the bytes written, nothing else (R262, R263; the recorded
length and the fill are the spec's own decision D27, log entry 9). -/
def Obligations.RomLoadAndUnloadKeepTheirRecord : Prop :=
  ∀ (offset : Addr) (bytes : List Byte) (s : State),
    (s.rom ≠ none → hostLoadRom offset bytes s = .fault .doubleLoad) ∧
    (s.rom = none → hostLoadRom offset bytes s =
      .next { hostLoad offset bytes s with rom := some ⟨offset, min bytes.length (4096 - offset.toNat)⟩ }) ∧
    (s.rom = none → hostUnloadRom s = .fault .unloadOfNothing) ∧
    (∀ r, s.rom = some r → ∃ t, hostUnloadRom s = .next t ∧ t.rom = none ∧
      (∀ a : Addr, r.start.toNat ≤ a.toNat → a.toNat < r.start.toNat + r.len → t.memRead a = 0x00#8) ∧
      (∀ a : Addr, (a.toNat < r.start.toNat ∨ r.start.toNat + r.len ≤ a.toNat) → t.memRead a = s.memRead a) ∧
      t = { s with mem := t.mem, rom := none })

/-- Unloading clears exactly the byte range the ROM occupied and nothing outside it (95_test_vectors.md S8; R262, R263, the
spec's own decision D27, log entry 9). -/
def Obligations.UnloadClearsExactlyTheLoadedRange : Prop :=
  ∀ (offset : Addr) (bytes : List Byte) (s : State), s.rom = none →
    ∃ t u, hostLoadRom offset bytes s = .next t ∧ hostUnloadRom t = .next u ∧ u.rom = none ∧
      ∀ a : Addr, u.memRead a =
        if offset.toNat ≤ a.toNat ∧ a.toNat < offset.toNat + bytes.length then 0x00#8 else s.memRead a

/-- An injected word is decoded and executed alone: no fetch, no timer count, no pc advance (R266: the spec's own decision D23,
log entry 9). -/
def Obligations.InjectRunsTheExecuteStepAlone : Prop :=
  (∀ (op : OpWord) (s : State),
    (∀ i, decode op = .ok i → hostInject op s = exec i s) ∧
    (invalidWord op → hostInject op s = .fault (.invalidOpCode op))) ∧
  (∀ (nnn : Addr) (s : State), hostInject (0x1#4 ++ nnn : OpWord) s = .next { s with pc := nnn }) ∧
  (∀ (x : Nibble) (s : State), s.key = none →
    hostInject ((0xF#4 ++ x) ++ 0x0A#8 : OpWord) s = .next { s with pc := s.pc - 2 })

/-- A host write between ticks is seen by the next fetch (R60): of two bytes loaded at `pc` the first is the high byte
fetched and the second the low byte, which is the spec's own decision D5 (R50, log entry 9). At `pc = 0xFFF` the load drops
the second byte (R261) and the fetch takes the low byte from address 0 (decision D7, R53, log entry 9). -/
def Obligations.FetchSeesTheHostsWrite : Prop :=
  ∀ (hi lo : Byte) (s : State),
    (s.pc ≠ 0xFFF#12 → (hostLoad s.pc [hi, lo] s).fetchWord.toNat = 256 * hi.toNat + lo.toNat) ∧
    (s.pc = 0xFFF#12 →
      (hostLoad s.pc [hi, lo] s).fetchWord.toNat = 256 * hi.toNat + (s.memRead 0x000#12).toNat)

/-- The boot sequence brings any state to the launch state (R264, R271; derived there from R260, R262, R266 and the decisions
D19, D23, log entries 8 and 9). -/
def Obligations.BootReachesTheLaunchState : Prop :=
  ∀ (addr : Addr) (bytes : List Byte) (s : State), addr.toNat + bytes.length ≤ 0x1000 →
    ∃ t, hostRun (bootOps addr bytes) s = .next t ∧
      (∀ (k : Nat) (h : k < bytes.length) (a : Addr), a.toNat = addr.toNat + k → t.memRead a = bytes[k]) ∧
      (∃ read, isResetMemory s.config read ∧
        ∀ a : Addr, (a.toNat < addr.toNat ∨ addr.toNat + bytes.length ≤ a.toNat) → t.memRead a = read a) ∧
      t.pc = addr ∧ (∀ x, t.reg x = 0x00#8) ∧ t.i = 0x000#12 ∧ t.dt = 0x00#8 ∧ t.st = 0x00#8 ∧
      t.sp.val = 0 ∧ (∀ j : Fin 16, t.stack[j.val] = 0x000#12) ∧ (∀ p, t.pixel p = 0x00#8) ∧
      t.key = none ∧ t.rom = some ⟨addr, bytes.length⟩ ∧ t.exited = false ∧ t.config = s.config

/-- A well-formed instruction placed at `pc` is the one the very next step decodes and runs (the model's
`withFetchWord`, log entry 10; R122, R127). -/
def Obligations.PlacedWordIsTheNextInstructionRun : Prop :=
  ∀ (i : Instr) (s : State), i.wellFormed = true →
    decodeTableWord 16 (encode i).toNat = some i ∧
    ∃ u, u = s.withFetchWord 16 (encode i).toNat ∧ u.pc = s.pc ∧
      step u = exec i (u.takeKey.beforeExecute s.nextKey) ∧
      (∀ a : Addr, a ≠ s.pc → a ≠ s.pc + 1 → u.memRead a = s.memRead a)
end

