-- ==== Sys2Proof/Laws/Assembly.lean ====
section
/-! SUPPORT. The text layer read back: hexadecimal digits, the words of a rendered line, the class of a rendered token
(spec/30_encoding.md R100, R104). -/

namespace Sys2Proof.Machine

/-! ### Hexadecimal digits -/

theorem hexDigit_hexChar {n : Nat} (h : n < 16) : hexDigit (hexChar n) = some n := by
  interval_cases n <;> rfl

theorem length_hexText (digits value : Nat) : (hexText digits value).length = digits := by
  induction digits with
  | zero => rfl
  | succ d ih => simp [hexText, ih]

theorem hexValue_hexText (digits value acc : Nat) :
    hexValue acc (hexText digits value) = some (16 ^ digits * acc + value % 16 ^ digits) := by
  induction digits generalizing acc with
  | zero => simp [hexText, hexValue, Nat.mod_one]
  | succ d ih =>
    have e : value % 16 ^ (d + 1) = 16 ^ d * (value / 16 ^ d % 16) + value % 16 ^ d := by
      rw [pow_succ, Nat.mod_mul]; ring
    simp only [hexText, hexValue, hexDigit_hexChar (Nat.mod_lt _ (by decide : 0 < 16)), ih, e]
    congr 1
    ring

/-! ### Words of a line -/

/-- A word that a line is split into: not empty, no blank inside. -/
def IsWord (w : List Char) : Prop := w ≠ [] ∧ ∀ c ∈ w, isBlank c = false

theorem splitWords_append (w cur rest : List Char) (hw : ∀ c ∈ w, isBlank c = false) :
    splitWords cur (w ++ rest) = splitWords (w.reverse ++ cur) rest := by
  induction w generalizing cur with
  | nil => rfl
  | cons c w ih =>
    have hc : isBlank c = false := hw c (by simp)
    have := ih (c :: cur) (fun d hd => hw d (by simp [hd]))
    simp [splitWords, hc, this]

/-- Splitting a joined line gives its words back. -/
theorem splitWords_joinWords (ws : List (List Char)) (h : ∀ w ∈ ws, IsWord w) : splitWords [] (joinWords ws) = ws := by
  induction ws with
  | nil => rfl
  | cons w rest ih =>
    obtain ⟨hne, hb⟩ := h w (by simp)
    have ih' := ih (fun u hu => h u (by simp [hu]))
    cases rest with
    | nil =>
      have := splitWords_append w [] [] hb
      simp only [List.append_nil] at this
      simp [joinWords, this, splitWords, hne]
    | cons u us =>
      have blank : isBlank ' ' = true := rfl
      simp only [joinWords]
      rw [splitWords_append w [] _ hb]
      simp [splitWords, blank, hne, ih']

/-! ### Tokens -/

/-- A token that rendering makes: a literal of at least one digit that its digits can hold, a register, a word. -/
def Token.isRendered (t : Token) : Prop :=
  match t with
  | .hex digits value => 0 < digits ∧ value < 16 ^ digits
  | .reg _ => True
  | .word _ => True
  | .badHex _ => False
  | .unknown _ => False

theorem isBlank_hexChar {n : Nat} (h : n < 16) : isBlank (hexChar n) = false := by
  interval_cases n <;> rfl

theorem isBlank_hexText (digits value : Nat) : ∀ c ∈ hexText digits value, isBlank c = false := by
  induction digits with
  | zero => simp [hexText]
  | succ d ih =>
    intro c hc
    rcases List.mem_cons.mp hc with rfl | hc
    · exact isBlank_hexChar (Nat.mod_lt _ (by decide))
    · exact ih c hc

theorem Keyword.spelling_isWord (k : Keyword) : IsWord k.spelling := by
  cases k <;> simp [IsWord, Keyword.spelling, isBlank]

theorem Keyword.classify_spelling (k : Keyword) : classify k.spelling = .word k := by
  cases k <;> rfl

theorem Token.text_isWord {t : Token} (h : t.isRendered) : IsWord t.text := by
  cases t with
  | hex digits value =>
    refine ⟨by simp [Token.text], fun c hc => ?_⟩
    simp only [Token.text, List.mem_cons] at hc
    rcases hc with rfl | rfl | hc
    · rfl
    · rfl
    · exact isBlank_hexText _ _ c hc
  | reg r =>
    refine ⟨by simp [Token.text], fun c hc => ?_⟩
    simp only [Token.text, List.mem_cons, List.not_mem_nil, or_false] at hc
    rcases hc with rfl | rfl
    · rfl
    · exact isBlank_hexChar r.isLt
  | word k => exact k.spelling_isWord
  | badHex cs => exact absurd h id
  | unknown cs => exact absurd h id

/-- A rendered token is read back as itself. -/
theorem classify_text {t : Token} (h : t.isRendered) : classify t.text = t := by
  cases t with
  | hex digits value =>
    have hv : value % 16 ^ digits = value := Nat.mod_eq_of_lt h.2
    have hl := length_hexText digits value
    have hne : hexText digits value ≠ [] := by
      intro e; rw [e] at hl; have := h.1; simp at hl; omega
    simp [Token.text, classify, hexValue_hexText, hv, hne, hl]
  | reg r =>
    have hr : r.toNat < 16 := r.isLt
    simp [Token.text, classify, hexDigit_hexChar hr]
  | word k => exact k.classify_spelling
  | badHex cs => exact absurd h id
  | unknown cs => exact absurd h id

theorem text_not_meta {t : Token} (h : t.isRendered) : ∀ rest, t.text ≠ ':' :: rest := by
  cases t with
  | hex digits value => simp [Token.text]
  | reg r => simp [Token.text]
  | word k => cases k <;> simp [Token.text, Keyword.spelling]
  | badHex cs => exact absurd h id
  | unknown cs => exact absurd h id

/-- A line of rendered tokens is parsed as those tokens. -/
theorem parseLine_tokens (ts : List Token) (h : ∀ t ∈ ts, t.isRendered) :
    parseLine (joinWords (ts.map Token.text)) = parse ts := by
  have hw : ∀ w ∈ ts.map Token.text, IsWord w := by
    intro w hw
    obtain ⟨t, ht, rfl⟩ := List.mem_map.mp hw
    exact Token.text_isWord (h t ht)
  have hc : (ts.map Token.text).map classify = ts := by
    rw [List.map_map]
    conv => rhs; rw [← List.map_id ts]
    exact List.map_congr_left fun t ht => classify_text (h t ht)
  unfold parseLine
  rw [splitWords_joinWords _ hw]
  split
  · next rest' heq =>
    cases ts with
    | nil => simp at heq
    | cons t ts =>
      simp only [List.map_cons, List.cons.injEq] at heq
      exact absurd heq.1 (text_not_meta (h t (by simp)) _)
  · rw [hc]

/-- Every token of a rendered instruction is of the form above. -/
theorem render_isRendered (i : Instr) : ∀ t ∈ render i, t.isRendered := by
  have hn (a : Addr) : (tokenNnn a).isRendered := ⟨by decide, a.isLt⟩
  have hk (b : Byte) : (tokenKk b).isRendered := ⟨by decide, b.isLt⟩
  have h1 (n : Nibble) : (tokenN n).isRendered := ⟨by decide, n.isLt⟩
  have hr (r : Nibble) : (Token.reg r).isRendered := trivial
  have hw (k : Keyword) : (Token.word k).isRendered := trivial
  cases i <;> simp [render, hn, hk, h1, hr, hw]

/-- A value of its width fits it. -/
theorem fitLiteral_toNat {α : Type} {width : Nat} (b : BitVec width) (next : BitVec width → Except AsmError α) :
    fitLiteral width b.toNat next = next b := by
  simp [fitLiteral, narrow, b.isLt]

/-! ### The structured instruction (R103) -/

/-- The structured instruction that an instruction of the core stands for. -/
def commandOf (i : Instr) : Command :=
  match i with
  | .graphicsClear => .clear
  | .ret => .ret
  | .exit => .exit
  | .sys nnn => .sys nnn
  | .jump nnn => .jump nnn none
  | .call nnn => .call nnn none
  | .skipEqVxKk x kk => .branch true (.reg x) (.imm kk)
  | .skipNeVxKk x kk => .branch false (.reg x) (.imm kk)
  | .skipEqVxVy x y => .branch true (.reg x) (.reg y)
  | .setVxKk x kk => .arith .set (.reg x) (.imm kk)
  | .addVxKk x kk => .arith .add (.reg x) (.imm kk)
  | .setVxVy x y => .arith .set (.reg x) (.reg y)
  | .orVxVy x y => .arith .or (.reg x) (.reg y)
  | .andVxVy x y => .arith .and (.reg x) (.reg y)
  | .xorVxVy x y => .arith .xor (.reg x) (.reg y)
  | .addcVxVy x y => .arith .addc (.reg x) (.reg y)
  | .subVxVy x y => .arith .sub (.reg x) (.reg y)
  | .shrVxVy x y => .arith .shr (.reg x) (.reg y)
  | .subrVxVy x y => .arith .subr (.reg x) (.reg y)
  | .shlVxVy x y => .arith .shl (.reg x) (.reg y)
  | .skipNeVxVy x y => .branch false (.reg x) (.reg y)
  | .indexSet nnn => .indexSet (.imm nnn)
  | .jumpV0 nnn => .jump nnn (some 0x0#4)
  | .randVxKk x kk => .arith .rand (.reg x) (.imm kk)
  | .graphicsDraw x y n => .draw x y n
  | .timerGet x => .timerGet x .delay
  | .keyAwait x => .keyAwait x
  | .setDelay x => .arith .set (.timer .delay) (.reg x)
  | .setSound x => .arith .set (.timer .sound) (.reg x)
  | .indexAdd x => .indexAdd (.reg x)
  | .fontVx x => .font x

/-- Every instruction of the core is encoded from its structured form. -/
theorem instr_commandOf (i : Instr) : (commandOf i).instr = some i := by
  cases i <;> rfl

/-- Reading a rendered instruction gives its structured form. -/
theorem readCommand_render (i : Instr) : readCommand (render i) = .ok (commandOf i) := by
  cases i <;>
    simp [readCommand, readMnemonic, render, commandOf, readArith, readSkip, readBranch, readFlow, readIndex,
      readIndexForm, readTimer, readTimerGet, readKey, readGraphics, readDraw, readX, expectTarget, expectSource,
      expectCompared, expectIndexSource, expectReg, expectHex, expectEnd, tokenNnn, tokenKk, tokenN, fitLiteral_toNat]

/-- A rendered instruction is no raw literal. -/
theorem parse_render_eq (i : Instr) : parse (render i) = encodeCommand (readCommand (render i)) := by
  cases i <;> rfl

end Sys2Proof.Machine
end

