-- ==== Sys2Proof/Laws/Cells.lean ====
section
/-! SUPPORT. The sparse byte store: a read after a write, the canonical form kept by every operation, and equal reads of
canonical lists make equal lists. -/

namespace Sys2Proof.Machine

variable (dflt : Nat → Byte)

/-! ### Reading after an operation -/

theorem cellsRead_erase_same (m : List Host.Cell) (a : Nat) : cellsRead dflt (cellsErase a m) a = dflt a := by
  induction m with
  | nil => rfl
  | cons c rest ih =>
    by_cases h : c.1 = a
    · simpa [cellsErase, h] using ih
    · simpa [cellsErase, h, cellsRead] using ih

theorem cellsRead_erase_other (m : List Host.Cell) {a q : Nat} (h : q ≠ a) :
    cellsRead dflt (cellsErase a m) q = cellsRead dflt m q := by
  induction m with
  | nil => rfl
  | cons c rest ih =>
    by_cases hc : c.1 = a
    · have : a ≠ q := fun e => h e.symm
      simpa [cellsErase, cellsRead, hc, this] using ih
    · by_cases hq : c.1 = q
      · simp [cellsErase, cellsRead, hq, h]
      · simpa [cellsErase, cellsRead, hc, hq] using ih

theorem cellsRead_insert_other (m : List Host.Cell) {a q : Nat} (b : Byte) (h : q ≠ a) :
    cellsRead dflt (cellsInsert a b m) q = cellsRead dflt m q := by
  have h' : a ≠ q := fun e => h e.symm
  induction m with
  | nil => simp [cellsInsert, cellsRead, h']
  | cons c rest ih =>
    by_cases hc : a < c.1
    · simp [cellsInsert, cellsRead, hc, h']
    · by_cases hq : c.1 = q
      · subst hq
        simp [cellsInsert, cellsRead, hc]
      · simpa [cellsInsert, cellsRead, hc, hq] using ih

theorem cellsRead_insert_same (m : List Host.Cell) (a : Nat) (b : Byte) (h : ∀ c ∈ m, c.1 ≠ a) :
    cellsRead dflt (cellsInsert a b m) a = b := by
  induction m with
  | nil => simp [cellsInsert, cellsRead]
  | cons c rest ih =>
    have hc := h c (by simp)
    by_cases hl : a < c.1
    · simp [cellsInsert, cellsRead, hl]
    · simpa [cellsInsert, cellsRead, hl, hc] using ih (fun d hd => h d (by simp [hd]))

theorem cellsErase_absent (m : List Host.Cell) (a : Nat) : ∀ c ∈ cellsErase a m, c.1 ≠ a := by
  simp [cellsErase]

/-- A read after a write: the written byte at its address, every other byte as before. -/
theorem cellsRead_write (m : List Host.Cell) (a q : Nat) (b : Byte) :
    cellsRead dflt (cellsWrite dflt a b m) q = if q = a then b else cellsRead dflt m q := by
  by_cases hq : q = a
  · subst hq
    by_cases hb : b = dflt q
    · simp [cellsWrite, hb, cellsRead_erase_same]
    · simp [cellsWrite, hb, cellsRead_insert_same dflt _ _ _ (cellsErase_absent m q)]
  · by_cases hb : b = dflt a
    · simp [cellsWrite, hb, hq, cellsRead_erase_other]
    · simp [cellsWrite, hb, hq, cellsRead_erase_other, cellsRead_insert_other]

/-! ### The canonical form -/

theorem mem_cellsInsert {m : List Host.Cell} {a : Nat} {b : Byte} {c : Host.Cell} :
    c ∈ cellsInsert a b m ↔ c = (a, b) ∨ c ∈ m := by
  induction m with
  | nil => simp [cellsInsert]
  | cons d rest ih =>
    by_cases h : a < d.1
    · simp [cellsInsert, h]
    · simp only [cellsInsert, h, if_false, List.mem_cons, ih]
      tauto

theorem cellsRising_erase {m : List Host.Cell} (a : Nat) (h : cellsRising m = true) :
    cellsRising (cellsErase a m) = true := by
  induction m with
  | nil => rfl
  | cons c rest ih =>
    simp only [cellsRising, Bool.and_eq_true, List.all_eq_true, decide_eq_true_eq] at h
    have hr := ih h.2
    by_cases hc : c.1 = a
    · simpa [cellsErase, hc] using hr
    · have : cellsErase a (c :: rest) = c :: cellsErase a rest := by simp [cellsErase, hc]
      rw [this]
      simp only [cellsRising, Bool.and_eq_true, List.all_eq_true, decide_eq_true_eq]
      exact ⟨fun d hd => h.1 d (List.mem_filter.mp hd).1, hr⟩

theorem cellsRising_insert {m : List Host.Cell} (a : Nat) (b : Byte) (h : cellsRising m = true)
    (ha : ∀ c ∈ m, c.1 ≠ a) : cellsRising (cellsInsert a b m) = true := by
  induction m with
  | nil => rfl
  | cons c rest ih =>
    have hall := h
    simp only [cellsRising, Bool.and_eq_true, List.all_eq_true, decide_eq_true_eq] at h
    by_cases hl : a < c.1
    · simp only [cellsInsert, hl, if_true]
      rw [cellsRising]
      simp only [Bool.and_eq_true, List.all_eq_true, decide_eq_true_eq]
      refine ⟨fun d hd => ?_, hall⟩
      rcases List.mem_cons.mp hd with rfl | hd
      · exact hl
      · exact lt_trans hl (h.1 d hd)
    · simp only [cellsInsert, hl, if_false]
      simp only [cellsRising, Bool.and_eq_true, List.all_eq_true, decide_eq_true_eq]
      refine ⟨fun d hd => ?_, ih h.2 (fun d hd => ha d (by simp [hd]))⟩
      rcases mem_cellsInsert.mp hd with rfl | hd
      · exact lt_of_le_of_ne (not_lt.mp hl) (ha c (by simp))
      · exact h.1 d hd

/-- What the canonical form says of the entries. -/
theorem cellsWf_iff (bound : Nat) (m : List Host.Cell) :
    cellsWf dflt bound m = true ↔ cellsRising m = true ∧ ∀ c ∈ m, c.1 < bound ∧ c.2 ≠ dflt c.1 := by
  simp [cellsWf]

/-- A write inside the bound keeps the canonical form. -/
theorem cellsWf_write {bound : Nat} {m : List Host.Cell} {a : Nat} (b : Byte) (ha : a < bound)
    (h : cellsWf dflt bound m = true) : cellsWf dflt bound (cellsWrite dflt a b m) = true := by
  rw [cellsWf_iff] at h ⊢
  have he : ∀ c ∈ cellsErase a m, c.1 < bound ∧ c.2 ≠ dflt c.1 :=
    fun c hc => h.2 c (List.mem_filter.mp hc).1
  by_cases hb : b = dflt a
  · simp only [cellsWrite, hb, if_true]
    exact ⟨cellsRising_erase a h.1, he⟩
  · simp only [cellsWrite, hb, if_false]
    refine ⟨cellsRising_insert a b (cellsRising_erase a h.1) (cellsErase_absent m a), fun c hc => ?_⟩
    rcases mem_cellsInsert.mp hc with rfl | hc
    · exact ⟨ha, hb⟩
    · exact he c hc

/-- The empty list is canonical. -/
theorem cellsWf_nil (bound : Nat) : cellsWf dflt bound [] = true := rfl

/-- The entries a write leaves: the written one or an old one. -/
theorem mem_cellsWrite {m : List Host.Cell} {a : Nat} {b : Byte} {c : Host.Cell}
    (h : c ∈ cellsWrite dflt a b m) : c = (a, b) ∨ c ∈ m := by
  by_cases hb : b = dflt a
  · simp only [cellsWrite, hb, if_true] at h
    exact .inr (List.mem_filter.mp h).1
  · simp only [cellsWrite, hb, if_false] at h
    rcases mem_cellsInsert.mp h with h | h
    · exact .inl h
    · exact .inr (List.mem_filter.mp h).1

theorem cellsRead_absent {m : List Host.Cell} {a : Nat} (h : ∀ c ∈ m, c.1 ≠ a) : cellsRead dflt m a = dflt a := by
  induction m with
  | nil => rfl
  | cons c rest ih =>
    have := h c (by simp)
    simpa [cellsRead, this] using ih (fun d hd => h d (by simp [hd]))

/-- Reading a store whose entries all satisfy a property gives such a byte or the unlisted value. -/
theorem cellsRead_cases (m : List Host.Cell) (a : Nat) :
    cellsRead dflt m a = dflt a ∨ (a, cellsRead dflt m a) ∈ m := by
  induction m with
  | nil => exact .inl rfl
  | cons c rest ih =>
    by_cases hc : c.1 = a
    · right; simp [cellsRead, ← hc]
    · rcases ih with h | h
      · left; simpa [cellsRead, hc] using h
      · right; simp only [cellsRead, hc, if_false]; exact List.mem_cons_of_mem _ h

end Sys2Proof.Machine
end

