-- ==== Sys2Proof/Laws/Decode.lean ====
section
/-! SUPPORT. The bits and fields of a packed word, a word rebuilt from its fields, and the bytes of a word
(spec/20_memory.md R50, spec/30_encoding.md R81, R82, R96). -/

namespace Sys2Proof

/-! ### Bits -/

theorem getLsbD_packNnn (f : Nibble) (nnn : Addr) (k : Nat) :
    (packNnn f nnn).getLsbD k = if k < 12 then nnn.getLsbD k else f.getLsbD (k - 12) :=
  BitVec.getLsbD_append

theorem getLsbD_byte_append (y n : Nibble) (k : Nat) :
    ((y ++ n : Byte)).getLsbD k = if k < 4 then n.getLsbD k else y.getLsbD (k - 4) :=
  BitVec.getLsbD_append

theorem getLsbD_packXkk (f x : Nibble) (kk : Byte) (k : Nat) :
    (packXkk f x kk).getLsbD k =
      if k < 8 then kk.getLsbD k else if k - 8 < 4 then x.getLsbD (k - 8) else f.getLsbD (k - 8 - 4) := by
  rw [← getLsbD_byte_append f x (k - 8)]
  exact BitVec.getLsbD_append

theorem getLsbD_wordOfBytes (hi lo : Byte) (k : Nat) :
    (wordOfBytes hi lo).getLsbD k = if k < 8 then lo.getLsbD k else hi.getLsbD (k - 8) :=
  BitVec.getLsbD_append

/-! ### The fields of a packed word -/

@[simp] theorem fieldF_packNnn (f : Nibble) (nnn : Addr) : fieldF (packNnn f nnn) = f := by
  refine BitVec.eq_of_getLsbD_eq fun k hk => ?_
  simp [fieldF, getLsbD_packNnn, hk]

@[simp] theorem fieldNnn_packNnn (f : Nibble) (nnn : Addr) : fieldNnn (packNnn f nnn) = nnn := by
  refine BitVec.eq_of_getLsbD_eq fun k hk => ?_
  simp [fieldNnn, getLsbD_packNnn, hk]

@[simp] theorem fieldF_packXkk (f x : Nibble) (kk : Byte) : fieldF (packXkk f x kk) = f := by
  refine BitVec.eq_of_getLsbD_eq fun k hk => ?_
  have h : ¬ 12 + k < 8 := by omega
  have h' : ¬ 12 + k - 8 < 4 := by omega
  have e : 12 + k - 8 - 4 = k := by omega
  simp [fieldF, getLsbD_packXkk, hk, h, h', e]

@[simp] theorem fieldX_packXkk (f x : Nibble) (kk : Byte) : fieldX (packXkk f x kk) = x := by
  refine BitVec.eq_of_getLsbD_eq fun k hk => ?_
  simp [fieldX, getLsbD_packXkk, hk]

@[simp] theorem fieldKk_packXkk (f x : Nibble) (kk : Byte) : fieldKk (packXkk f x kk) = kk := by
  refine BitVec.eq_of_getLsbD_eq fun k hk => ?_
  simp [fieldKk, getLsbD_packXkk, hk]

/-- Four nibbles are two nibbles and a byte. -/
theorem packXyn_eq_packXkk (f x y n : Nibble) : packXyn f x y n = packXkk f x (y ++ n) := rfl

@[simp] theorem fieldF_packXyn (f x y n : Nibble) : fieldF (packXyn f x y n) = f := by
  rw [packXyn_eq_packXkk, fieldF_packXkk]

@[simp] theorem fieldX_packXyn (f x y n : Nibble) : fieldX (packXyn f x y n) = x := by
  rw [packXyn_eq_packXkk, fieldX_packXkk]

@[simp] theorem fieldY_packXyn (f x y n : Nibble) : fieldY (packXyn f x y n) = y := by
  refine BitVec.eq_of_getLsbD_eq fun k hk => ?_
  have h : 4 + k < 8 := by omega
  have bit : (fieldY (packXyn f x y n)).getLsbD k = (packXyn f x y n).getLsbD (4 + k) := by simp [fieldY, hk]
  rw [bit, packXyn_eq_packXkk, getLsbD_packXkk, if_pos h, getLsbD_byte_append]
  simp

@[simp] theorem fieldN_packXyn (f x y n : Nibble) : fieldN (packXyn f x y n) = n := by
  refine BitVec.eq_of_getLsbD_eq fun k hk => ?_
  have h : k < 8 := by omega
  have bit : (fieldN (packXyn f x y n)).getLsbD k = (packXyn f x y n).getLsbD k := by simp [fieldN, hk]
  rw [bit, packXyn_eq_packXkk, getLsbD_packXkk, if_pos h, getLsbD_byte_append, if_pos hk]

/-! ### A word is its fields, packed -/

theorem packNnn_fields (op : OpWord) : packNnn (fieldF op) (fieldNnn op) = op := by
  refine BitVec.eq_of_getLsbD_eq fun k hk => ?_
  rw [getLsbD_packNnn]
  by_cases h : k < 12
  · simp [fieldNnn, h]
  · have e : 12 + (k - 12) = k := by omega
    have h' : k - 12 < 4 := by omega
    simp [fieldF, h, h', e]

theorem packXkk_fields (op : OpWord) : packXkk (fieldF op) (fieldX op) (fieldKk op) = op := by
  refine BitVec.eq_of_getLsbD_eq fun k hk => ?_
  rw [getLsbD_packXkk]
  by_cases h : k < 8
  · simp [fieldKk, h]
  · by_cases h' : k - 8 < 4
    · have e : 8 + (k - 8) = k := by omega
      simp [fieldX, h, h', e]
    · have e : 12 + (k - 8 - 4) = k := by omega
      have h'' : k - 8 - 4 < 4 := by omega
      simp [fieldF, h, h', h'', e]

theorem fieldY_append_fieldN (op : OpWord) : (fieldY op ++ fieldN op : Byte) = fieldKk op := by
  refine BitVec.eq_of_getLsbD_eq fun k hk => ?_
  rw [getLsbD_byte_append]
  by_cases h : k < 4
  · simp [fieldN, fieldKk, h, hk]
  · have e : 4 + (k - 4) = k := by omega
    have h' : k - 4 < 4 := by omega
    simp [fieldY, fieldKk, h, h', e, hk]

theorem packXyn_fields (op : OpWord) : packXyn (fieldF op) (fieldX op) (fieldY op) (fieldN op) = op := by
  rw [packXyn_eq_packXkk, fieldY_append_fieldN, packXkk_fields]

/-! ### The bytes of a word (R50) -/

@[simp] theorem wordOfBytes_bytes (op : OpWord) : wordOfBytes (highByte op) (lowByte op) = op := by
  refine BitVec.eq_of_getLsbD_eq fun k hk => ?_
  rw [getLsbD_wordOfBytes]
  by_cases h : k < 8
  · simp [lowByte, h]
  · have e : 8 + (k - 8) = k := by omega
    have h' : k - 8 < 8 := by omega
    simp [highByte, h, h', e]

@[simp] theorem highByte_wordOfBytes (hi lo : Byte) : highByte (wordOfBytes hi lo) = hi := by
  refine BitVec.eq_of_getLsbD_eq fun k hk => ?_
  simp [highByte, getLsbD_wordOfBytes, hk]

@[simp] theorem lowByte_wordOfBytes (hi lo : Byte) : lowByte (wordOfBytes hi lo) = lo := by
  refine BitVec.eq_of_getLsbD_eq fun k hk => ?_
  simp [lowByte, getLsbD_wordOfBytes, hk]

/-- The decoder's only error carries the word itself (R95). -/
theorem decode_error_word {op : OpWord} {e : DecodeError} (h : decode op = .error e) : e = .invalidOpCode op := by
  cases e with
  | invalidOpCode w =>
    unfold decode at h
    split at h <;> first
      | (unfold decodeFamily8 at h; split at h <;> simp_all)
      | (unfold decodeFamilyF at h; split at h <;> simp_all)
      | (split at h <;> simp_all)
      | simp_all

end Sys2Proof
end

