-- ==== Sys2Proof/Laws/State.lean ====
section
/-! SUPPORT. One lemma per field per update of the state, and what `reg`, `memRead` and `pixel` see of each update, so that
no proof unfolds a record update. -/

namespace Sys2Proof.Machine

variable (s : State)

/-! ### memWrite -/

@[simp] theorem State.memWrite_v (a : Addr) (b : Byte) : (s.memWrite a b).v = s.v := rfl
@[simp] theorem State.memWrite_pc (a : Addr) (b : Byte) : (s.memWrite a b).pc = s.pc := rfl
@[simp] theorem State.memWrite_i (a : Addr) (b : Byte) : (s.memWrite a b).i = s.i := rfl
@[simp] theorem State.memWrite_dt (a : Addr) (b : Byte) : (s.memWrite a b).dt = s.dt := rfl
@[simp] theorem State.memWrite_st (a : Addr) (b : Byte) : (s.memWrite a b).st = s.st := rfl
@[simp] theorem State.memWrite_stack (a : Addr) (b : Byte) : (s.memWrite a b).stack = s.stack := rfl
@[simp] theorem State.memWrite_sp (a : Addr) (b : Byte) : (s.memWrite a b).sp = s.sp := rfl
@[simp] theorem State.memWrite_mem (a : Addr) (b : Byte) : (s.memWrite a b).mem = cellsWrite (resetByte s.config) a.toNat b s.mem := rfl
@[simp] theorem State.memWrite_disp (a : Addr) (b : Byte) : (s.memWrite a b).disp = s.disp := rfl
@[simp] theorem State.memWrite_key (a : Addr) (b : Byte) : (s.memWrite a b).key = s.key := rfl
@[simp] theorem State.memWrite_rom (a : Addr) (b : Byte) : (s.memWrite a b).rom = s.rom := rfl
@[simp] theorem State.memWrite_config (a : Addr) (b : Byte) : (s.memWrite a b).config = s.config := rfl
@[simp] theorem State.memWrite_keyInputs (a : Addr) (b : Byte) : (s.memWrite a b).keyInputs = s.keyInputs := rfl
@[simp] theorem State.memWrite_ticks (a : Addr) (b : Byte) : (s.memWrite a b).ticks = s.ticks := rfl
@[simp] theorem State.memWrite_draws (a : Addr) (b : Byte) : (s.memWrite a b).draws = s.draws := rfl
@[simp] theorem State.memWrite_exited (a : Addr) (b : Byte) : (s.memWrite a b).exited = s.exited := rfl
@[simp] theorem State.memWrite_reg (a : Addr) (b : Byte) (z : Nibble) : (s.memWrite a b).reg z = s.reg z := rfl
@[simp] theorem State.memWrite_pixel (a : Addr) (b : Byte) (p : Nat) : (s.memWrite a b).pixel p = s.pixel p := rfl

/-! ### setDisp -/

@[simp] theorem State.setDisp_v (d : List Host.Cell) : (s.setDisp d).v = s.v := rfl
@[simp] theorem State.setDisp_pc (d : List Host.Cell) : (s.setDisp d).pc = s.pc := rfl
@[simp] theorem State.setDisp_i (d : List Host.Cell) : (s.setDisp d).i = s.i := rfl
@[simp] theorem State.setDisp_dt (d : List Host.Cell) : (s.setDisp d).dt = s.dt := rfl
@[simp] theorem State.setDisp_st (d : List Host.Cell) : (s.setDisp d).st = s.st := rfl
@[simp] theorem State.setDisp_stack (d : List Host.Cell) : (s.setDisp d).stack = s.stack := rfl
@[simp] theorem State.setDisp_sp (d : List Host.Cell) : (s.setDisp d).sp = s.sp := rfl
@[simp] theorem State.setDisp_mem (d : List Host.Cell) : (s.setDisp d).mem = s.mem := rfl
@[simp] theorem State.setDisp_disp (d : List Host.Cell) : (s.setDisp d).disp = d := rfl
@[simp] theorem State.setDisp_key (d : List Host.Cell) : (s.setDisp d).key = s.key := rfl
@[simp] theorem State.setDisp_rom (d : List Host.Cell) : (s.setDisp d).rom = s.rom := rfl
@[simp] theorem State.setDisp_config (d : List Host.Cell) : (s.setDisp d).config = s.config := rfl
@[simp] theorem State.setDisp_keyInputs (d : List Host.Cell) : (s.setDisp d).keyInputs = s.keyInputs := rfl
@[simp] theorem State.setDisp_ticks (d : List Host.Cell) : (s.setDisp d).ticks = s.ticks := rfl
@[simp] theorem State.setDisp_draws (d : List Host.Cell) : (s.setDisp d).draws = s.draws := rfl
@[simp] theorem State.setDisp_exited (d : List Host.Cell) : (s.setDisp d).exited = s.exited := rfl
@[simp] theorem State.setDisp_reg (d : List Host.Cell) (z : Nibble) : (s.setDisp d).reg z = s.reg z := rfl
@[simp] theorem State.setDisp_memRead (d : List Host.Cell) (q : Addr) : (s.setDisp d).memRead q = s.memRead q := rfl

/-! ### setReg -/

@[simp] theorem State.setReg_v (x : Nibble) (b : Byte) : (s.setReg x b).v = s.v.set x.toNat b x.isLt := rfl
@[simp] theorem State.setReg_pc (x : Nibble) (b : Byte) : (s.setReg x b).pc = s.pc := rfl
@[simp] theorem State.setReg_i (x : Nibble) (b : Byte) : (s.setReg x b).i = s.i := rfl
@[simp] theorem State.setReg_dt (x : Nibble) (b : Byte) : (s.setReg x b).dt = s.dt := rfl
@[simp] theorem State.setReg_st (x : Nibble) (b : Byte) : (s.setReg x b).st = s.st := rfl
@[simp] theorem State.setReg_stack (x : Nibble) (b : Byte) : (s.setReg x b).stack = s.stack := rfl
@[simp] theorem State.setReg_sp (x : Nibble) (b : Byte) : (s.setReg x b).sp = s.sp := rfl
@[simp] theorem State.setReg_mem (x : Nibble) (b : Byte) : (s.setReg x b).mem = s.mem := rfl
@[simp] theorem State.setReg_disp (x : Nibble) (b : Byte) : (s.setReg x b).disp = s.disp := rfl
@[simp] theorem State.setReg_key (x : Nibble) (b : Byte) : (s.setReg x b).key = s.key := rfl
@[simp] theorem State.setReg_rom (x : Nibble) (b : Byte) : (s.setReg x b).rom = s.rom := rfl
@[simp] theorem State.setReg_config (x : Nibble) (b : Byte) : (s.setReg x b).config = s.config := rfl
@[simp] theorem State.setReg_keyInputs (x : Nibble) (b : Byte) : (s.setReg x b).keyInputs = s.keyInputs := rfl
@[simp] theorem State.setReg_ticks (x : Nibble) (b : Byte) : (s.setReg x b).ticks = s.ticks := rfl
@[simp] theorem State.setReg_draws (x : Nibble) (b : Byte) : (s.setReg x b).draws = s.draws := rfl
@[simp] theorem State.setReg_exited (x : Nibble) (b : Byte) : (s.setReg x b).exited = s.exited := rfl
@[simp] theorem State.setReg_memRead (x : Nibble) (b : Byte) (q : Addr) : (s.setReg x b).memRead q = s.memRead q := rfl
@[simp] theorem State.setReg_pixel (x : Nibble) (b : Byte) (p : Nat) : (s.setReg x b).pixel p = s.pixel p := rfl

/-! ### setPc -/

@[simp] theorem State.setPc_v (a : Addr) : (s.setPc a).v = s.v := rfl
@[simp] theorem State.setPc_pc (a : Addr) : (s.setPc a).pc = a := rfl
@[simp] theorem State.setPc_i (a : Addr) : (s.setPc a).i = s.i := rfl
@[simp] theorem State.setPc_dt (a : Addr) : (s.setPc a).dt = s.dt := rfl
@[simp] theorem State.setPc_st (a : Addr) : (s.setPc a).st = s.st := rfl
@[simp] theorem State.setPc_stack (a : Addr) : (s.setPc a).stack = s.stack := rfl
@[simp] theorem State.setPc_sp (a : Addr) : (s.setPc a).sp = s.sp := rfl
@[simp] theorem State.setPc_mem (a : Addr) : (s.setPc a).mem = s.mem := rfl
@[simp] theorem State.setPc_disp (a : Addr) : (s.setPc a).disp = s.disp := rfl
@[simp] theorem State.setPc_key (a : Addr) : (s.setPc a).key = s.key := rfl
@[simp] theorem State.setPc_rom (a : Addr) : (s.setPc a).rom = s.rom := rfl
@[simp] theorem State.setPc_config (a : Addr) : (s.setPc a).config = s.config := rfl
@[simp] theorem State.setPc_keyInputs (a : Addr) : (s.setPc a).keyInputs = s.keyInputs := rfl
@[simp] theorem State.setPc_ticks (a : Addr) : (s.setPc a).ticks = s.ticks := rfl
@[simp] theorem State.setPc_draws (a : Addr) : (s.setPc a).draws = s.draws := rfl
@[simp] theorem State.setPc_exited (a : Addr) : (s.setPc a).exited = s.exited := rfl
@[simp] theorem State.setPc_reg (a : Addr) (z : Nibble) : (s.setPc a).reg z = s.reg z := rfl
@[simp] theorem State.setPc_memRead (a : Addr) (q : Addr) : (s.setPc a).memRead q = s.memRead q := rfl
@[simp] theorem State.setPc_pixel (a : Addr) (p : Nat) : (s.setPc a).pixel p = s.pixel p := rfl

/-! ### setI -/

@[simp] theorem State.setI_v (a : Addr) : (s.setI a).v = s.v := rfl
@[simp] theorem State.setI_pc (a : Addr) : (s.setI a).pc = s.pc := rfl
@[simp] theorem State.setI_i (a : Addr) : (s.setI a).i = a := rfl
@[simp] theorem State.setI_dt (a : Addr) : (s.setI a).dt = s.dt := rfl
@[simp] theorem State.setI_st (a : Addr) : (s.setI a).st = s.st := rfl
@[simp] theorem State.setI_stack (a : Addr) : (s.setI a).stack = s.stack := rfl
@[simp] theorem State.setI_sp (a : Addr) : (s.setI a).sp = s.sp := rfl
@[simp] theorem State.setI_mem (a : Addr) : (s.setI a).mem = s.mem := rfl
@[simp] theorem State.setI_disp (a : Addr) : (s.setI a).disp = s.disp := rfl
@[simp] theorem State.setI_key (a : Addr) : (s.setI a).key = s.key := rfl
@[simp] theorem State.setI_rom (a : Addr) : (s.setI a).rom = s.rom := rfl
@[simp] theorem State.setI_config (a : Addr) : (s.setI a).config = s.config := rfl
@[simp] theorem State.setI_keyInputs (a : Addr) : (s.setI a).keyInputs = s.keyInputs := rfl
@[simp] theorem State.setI_ticks (a : Addr) : (s.setI a).ticks = s.ticks := rfl
@[simp] theorem State.setI_draws (a : Addr) : (s.setI a).draws = s.draws := rfl
@[simp] theorem State.setI_exited (a : Addr) : (s.setI a).exited = s.exited := rfl
@[simp] theorem State.setI_reg (a : Addr) (z : Nibble) : (s.setI a).reg z = s.reg z := rfl
@[simp] theorem State.setI_memRead (a : Addr) (q : Addr) : (s.setI a).memRead q = s.memRead q := rfl
@[simp] theorem State.setI_pixel (a : Addr) (p : Nat) : (s.setI a).pixel p = s.pixel p := rfl

/-! ### setDt -/

@[simp] theorem State.setDt_v (b : Byte) : (s.setDt b).v = s.v := rfl
@[simp] theorem State.setDt_pc (b : Byte) : (s.setDt b).pc = s.pc := rfl
@[simp] theorem State.setDt_i (b : Byte) : (s.setDt b).i = s.i := rfl
@[simp] theorem State.setDt_dt (b : Byte) : (s.setDt b).dt = b := rfl
@[simp] theorem State.setDt_st (b : Byte) : (s.setDt b).st = s.st := rfl
@[simp] theorem State.setDt_stack (b : Byte) : (s.setDt b).stack = s.stack := rfl
@[simp] theorem State.setDt_sp (b : Byte) : (s.setDt b).sp = s.sp := rfl
@[simp] theorem State.setDt_mem (b : Byte) : (s.setDt b).mem = s.mem := rfl
@[simp] theorem State.setDt_disp (b : Byte) : (s.setDt b).disp = s.disp := rfl
@[simp] theorem State.setDt_key (b : Byte) : (s.setDt b).key = s.key := rfl
@[simp] theorem State.setDt_rom (b : Byte) : (s.setDt b).rom = s.rom := rfl
@[simp] theorem State.setDt_config (b : Byte) : (s.setDt b).config = s.config := rfl
@[simp] theorem State.setDt_keyInputs (b : Byte) : (s.setDt b).keyInputs = s.keyInputs := rfl
@[simp] theorem State.setDt_ticks (b : Byte) : (s.setDt b).ticks = s.ticks := rfl
@[simp] theorem State.setDt_draws (b : Byte) : (s.setDt b).draws = s.draws := rfl
@[simp] theorem State.setDt_exited (b : Byte) : (s.setDt b).exited = s.exited := rfl
@[simp] theorem State.setDt_reg (b : Byte) (z : Nibble) : (s.setDt b).reg z = s.reg z := rfl
@[simp] theorem State.setDt_memRead (b : Byte) (q : Addr) : (s.setDt b).memRead q = s.memRead q := rfl
@[simp] theorem State.setDt_pixel (b : Byte) (p : Nat) : (s.setDt b).pixel p = s.pixel p := rfl

/-! ### setSt -/

@[simp] theorem State.setSt_v (b : Byte) : (s.setSt b).v = s.v := rfl
@[simp] theorem State.setSt_pc (b : Byte) : (s.setSt b).pc = s.pc := rfl
@[simp] theorem State.setSt_i (b : Byte) : (s.setSt b).i = s.i := rfl
@[simp] theorem State.setSt_dt (b : Byte) : (s.setSt b).dt = s.dt := rfl
@[simp] theorem State.setSt_st (b : Byte) : (s.setSt b).st = b := rfl
@[simp] theorem State.setSt_stack (b : Byte) : (s.setSt b).stack = s.stack := rfl
@[simp] theorem State.setSt_sp (b : Byte) : (s.setSt b).sp = s.sp := rfl
@[simp] theorem State.setSt_mem (b : Byte) : (s.setSt b).mem = s.mem := rfl
@[simp] theorem State.setSt_disp (b : Byte) : (s.setSt b).disp = s.disp := rfl
@[simp] theorem State.setSt_key (b : Byte) : (s.setSt b).key = s.key := rfl
@[simp] theorem State.setSt_rom (b : Byte) : (s.setSt b).rom = s.rom := rfl
@[simp] theorem State.setSt_config (b : Byte) : (s.setSt b).config = s.config := rfl
@[simp] theorem State.setSt_keyInputs (b : Byte) : (s.setSt b).keyInputs = s.keyInputs := rfl
@[simp] theorem State.setSt_ticks (b : Byte) : (s.setSt b).ticks = s.ticks := rfl
@[simp] theorem State.setSt_draws (b : Byte) : (s.setSt b).draws = s.draws := rfl
@[simp] theorem State.setSt_exited (b : Byte) : (s.setSt b).exited = s.exited := rfl
@[simp] theorem State.setSt_reg (b : Byte) (z : Nibble) : (s.setSt b).reg z = s.reg z := rfl
@[simp] theorem State.setSt_memRead (b : Byte) (q : Addr) : (s.setSt b).memRead q = s.memRead q := rfl
@[simp] theorem State.setSt_pixel (b : Byte) (p : Nat) : (s.setSt b).pixel p = s.pixel p := rfl

/-! ### countTimers -/

@[simp] theorem State.countTimers_v : (s.countTimers).v = s.v := rfl
@[simp] theorem State.countTimers_pc : (s.countTimers).pc = s.pc := rfl
@[simp] theorem State.countTimers_i : (s.countTimers).i = s.i := rfl
@[simp] theorem State.countTimers_dt : (s.countTimers).dt = countDown s.dt := rfl
@[simp] theorem State.countTimers_st : (s.countTimers).st = countDown s.st := rfl
@[simp] theorem State.countTimers_stack : (s.countTimers).stack = s.stack := rfl
@[simp] theorem State.countTimers_sp : (s.countTimers).sp = s.sp := rfl
@[simp] theorem State.countTimers_mem : (s.countTimers).mem = s.mem := rfl
@[simp] theorem State.countTimers_disp : (s.countTimers).disp = s.disp := rfl
@[simp] theorem State.countTimers_key : (s.countTimers).key = s.key := rfl
@[simp] theorem State.countTimers_rom : (s.countTimers).rom = s.rom := rfl
@[simp] theorem State.countTimers_config : (s.countTimers).config = s.config := rfl
@[simp] theorem State.countTimers_keyInputs : (s.countTimers).keyInputs = s.keyInputs := rfl
@[simp] theorem State.countTimers_ticks : (s.countTimers).ticks = s.ticks := rfl
@[simp] theorem State.countTimers_draws : (s.countTimers).draws = s.draws := rfl
@[simp] theorem State.countTimers_exited : (s.countTimers).exited = s.exited := rfl
@[simp] theorem State.countTimers_reg (z : Nibble) : (s.countTimers).reg z = s.reg z := rfl
@[simp] theorem State.countTimers_memRead (q : Addr) : (s.countTimers).memRead q = s.memRead q := rfl
@[simp] theorem State.countTimers_pixel (p : Nat) : (s.countTimers).pixel p = s.pixel p := rfl

/-! ### latchKey -/

@[simp] theorem State.latchKey_v (k : Option Nibble) : (s.latchKey k).v = s.v := rfl
@[simp] theorem State.latchKey_pc (k : Option Nibble) : (s.latchKey k).pc = s.pc := rfl
@[simp] theorem State.latchKey_i (k : Option Nibble) : (s.latchKey k).i = s.i := rfl
@[simp] theorem State.latchKey_dt (k : Option Nibble) : (s.latchKey k).dt = s.dt := rfl
@[simp] theorem State.latchKey_st (k : Option Nibble) : (s.latchKey k).st = s.st := rfl
@[simp] theorem State.latchKey_stack (k : Option Nibble) : (s.latchKey k).stack = s.stack := rfl
@[simp] theorem State.latchKey_sp (k : Option Nibble) : (s.latchKey k).sp = s.sp := rfl
@[simp] theorem State.latchKey_mem (k : Option Nibble) : (s.latchKey k).mem = s.mem := rfl
@[simp] theorem State.latchKey_disp (k : Option Nibble) : (s.latchKey k).disp = s.disp := rfl
@[simp] theorem State.latchKey_key (k : Option Nibble) : (s.latchKey k).key = k := rfl
@[simp] theorem State.latchKey_rom (k : Option Nibble) : (s.latchKey k).rom = s.rom := rfl
@[simp] theorem State.latchKey_config (k : Option Nibble) : (s.latchKey k).config = s.config := rfl
@[simp] theorem State.latchKey_keyInputs (k : Option Nibble) : (s.latchKey k).keyInputs = s.keyInputs := rfl
@[simp] theorem State.latchKey_ticks (k : Option Nibble) : (s.latchKey k).ticks = s.ticks := rfl
@[simp] theorem State.latchKey_draws (k : Option Nibble) : (s.latchKey k).draws = s.draws := rfl
@[simp] theorem State.latchKey_exited (k : Option Nibble) : (s.latchKey k).exited = s.exited := rfl
@[simp] theorem State.latchKey_reg (k : Option Nibble) (z : Nibble) : (s.latchKey k).reg z = s.reg z := rfl
@[simp] theorem State.latchKey_memRead (k : Option Nibble) (q : Addr) : (s.latchKey k).memRead q = s.memRead q := rfl
@[simp] theorem State.latchKey_pixel (k : Option Nibble) (p : Nat) : (s.latchKey k).pixel p = s.pixel p := rfl

/-! ### takeKey -/

@[simp] theorem State.takeKey_v : (s.takeKey).v = s.v := rfl
@[simp] theorem State.takeKey_pc : (s.takeKey).pc = s.pc := rfl
@[simp] theorem State.takeKey_i : (s.takeKey).i = s.i := rfl
@[simp] theorem State.takeKey_dt : (s.takeKey).dt = s.dt := rfl
@[simp] theorem State.takeKey_st : (s.takeKey).st = s.st := rfl
@[simp] theorem State.takeKey_stack : (s.takeKey).stack = s.stack := rfl
@[simp] theorem State.takeKey_sp : (s.takeKey).sp = s.sp := rfl
@[simp] theorem State.takeKey_mem : (s.takeKey).mem = s.mem := rfl
@[simp] theorem State.takeKey_disp : (s.takeKey).disp = s.disp := rfl
@[simp] theorem State.takeKey_key : (s.takeKey).key = s.key := rfl
@[simp] theorem State.takeKey_rom : (s.takeKey).rom = s.rom := rfl
@[simp] theorem State.takeKey_config : (s.takeKey).config = s.config := rfl
@[simp] theorem State.takeKey_keyInputs : (s.takeKey).keyInputs = s.keyInputs.tail := rfl
@[simp] theorem State.takeKey_ticks : (s.takeKey).ticks = s.ticks + 1 := rfl
@[simp] theorem State.takeKey_draws : (s.takeKey).draws = s.draws := rfl
@[simp] theorem State.takeKey_exited : (s.takeKey).exited = s.exited := rfl
@[simp] theorem State.takeKey_reg (z : Nibble) : (s.takeKey).reg z = s.reg z := rfl
@[simp] theorem State.takeKey_memRead (q : Addr) : (s.takeKey).memRead q = s.memRead q := rfl
@[simp] theorem State.takeKey_pixel (p : Nat) : (s.takeKey).pixel p = s.pixel p := rfl

/-! ### takeDraw -/

@[simp] theorem State.takeDraw_v : (s.takeDraw).v = s.v := rfl
@[simp] theorem State.takeDraw_pc : (s.takeDraw).pc = s.pc := rfl
@[simp] theorem State.takeDraw_i : (s.takeDraw).i = s.i := rfl
@[simp] theorem State.takeDraw_dt : (s.takeDraw).dt = s.dt := rfl
@[simp] theorem State.takeDraw_st : (s.takeDraw).st = s.st := rfl
@[simp] theorem State.takeDraw_stack : (s.takeDraw).stack = s.stack := rfl
@[simp] theorem State.takeDraw_sp : (s.takeDraw).sp = s.sp := rfl
@[simp] theorem State.takeDraw_mem : (s.takeDraw).mem = s.mem := rfl
@[simp] theorem State.takeDraw_disp : (s.takeDraw).disp = s.disp := rfl
@[simp] theorem State.takeDraw_key : (s.takeDraw).key = s.key := rfl
@[simp] theorem State.takeDraw_rom : (s.takeDraw).rom = s.rom := rfl
@[simp] theorem State.takeDraw_config : (s.takeDraw).config = s.config := rfl
@[simp] theorem State.takeDraw_keyInputs : (s.takeDraw).keyInputs = s.keyInputs := rfl
@[simp] theorem State.takeDraw_ticks : (s.takeDraw).ticks = s.ticks := rfl
@[simp] theorem State.takeDraw_draws : (s.takeDraw).draws = s.draws + 1 := rfl
@[simp] theorem State.takeDraw_exited : (s.takeDraw).exited = s.exited := rfl
@[simp] theorem State.takeDraw_reg (z : Nibble) : (s.takeDraw).reg z = s.reg z := rfl
@[simp] theorem State.takeDraw_memRead (q : Addr) : (s.takeDraw).memRead q = s.memRead q := rfl
@[simp] theorem State.takeDraw_pixel (p : Nat) : (s.takeDraw).pixel p = s.pixel p := rfl

/-! ### setRom -/

@[simp] theorem State.setRom_v (r : Option RomRange) : (s.setRom r).v = s.v := rfl
@[simp] theorem State.setRom_pc (r : Option RomRange) : (s.setRom r).pc = s.pc := rfl
@[simp] theorem State.setRom_i (r : Option RomRange) : (s.setRom r).i = s.i := rfl
@[simp] theorem State.setRom_dt (r : Option RomRange) : (s.setRom r).dt = s.dt := rfl
@[simp] theorem State.setRom_st (r : Option RomRange) : (s.setRom r).st = s.st := rfl
@[simp] theorem State.setRom_stack (r : Option RomRange) : (s.setRom r).stack = s.stack := rfl
@[simp] theorem State.setRom_sp (r : Option RomRange) : (s.setRom r).sp = s.sp := rfl
@[simp] theorem State.setRom_mem (r : Option RomRange) : (s.setRom r).mem = s.mem := rfl
@[simp] theorem State.setRom_disp (r : Option RomRange) : (s.setRom r).disp = s.disp := rfl
@[simp] theorem State.setRom_key (r : Option RomRange) : (s.setRom r).key = s.key := rfl
@[simp] theorem State.setRom_rom (r : Option RomRange) : (s.setRom r).rom = r := rfl
@[simp] theorem State.setRom_config (r : Option RomRange) : (s.setRom r).config = s.config := rfl
@[simp] theorem State.setRom_keyInputs (r : Option RomRange) : (s.setRom r).keyInputs = s.keyInputs := rfl
@[simp] theorem State.setRom_ticks (r : Option RomRange) : (s.setRom r).ticks = s.ticks := rfl
@[simp] theorem State.setRom_draws (r : Option RomRange) : (s.setRom r).draws = s.draws := rfl
@[simp] theorem State.setRom_exited (r : Option RomRange) : (s.setRom r).exited = s.exited := rfl
@[simp] theorem State.setRom_reg (r : Option RomRange) (z : Nibble) : (s.setRom r).reg z = s.reg z := rfl
@[simp] theorem State.setRom_memRead (r : Option RomRange) (q : Addr) : (s.setRom r).memRead q = s.memRead q := rfl
@[simp] theorem State.setRom_pixel (r : Option RomRange) (p : Nat) : (s.setRom r).pixel p = s.pixel p := rfl

/-! ### endRun -/

@[simp] theorem State.endRun_v : (s.endRun).v = s.v := rfl
@[simp] theorem State.endRun_pc : (s.endRun).pc = s.pc := rfl
@[simp] theorem State.endRun_i : (s.endRun).i = s.i := rfl
@[simp] theorem State.endRun_dt : (s.endRun).dt = s.dt := rfl
@[simp] theorem State.endRun_st : (s.endRun).st = s.st := rfl
@[simp] theorem State.endRun_stack : (s.endRun).stack = s.stack := rfl
@[simp] theorem State.endRun_sp : (s.endRun).sp = s.sp := rfl
@[simp] theorem State.endRun_mem : (s.endRun).mem = s.mem := rfl
@[simp] theorem State.endRun_disp : (s.endRun).disp = s.disp := rfl
@[simp] theorem State.endRun_key : (s.endRun).key = s.key := rfl
@[simp] theorem State.endRun_rom : (s.endRun).rom = s.rom := rfl
@[simp] theorem State.endRun_config : (s.endRun).config = s.config := rfl
@[simp] theorem State.endRun_keyInputs : (s.endRun).keyInputs = s.keyInputs := rfl
@[simp] theorem State.endRun_ticks : (s.endRun).ticks = s.ticks := rfl
@[simp] theorem State.endRun_draws : (s.endRun).draws = s.draws := rfl
@[simp] theorem State.endRun_exited : (s.endRun).exited = true := rfl
@[simp] theorem State.endRun_reg (z : Nibble) : (s.endRun).reg z = s.reg z := rfl
@[simp] theorem State.endRun_memRead (q : Addr) : (s.endRun).memRead q = s.memRead q := rfl
@[simp] theorem State.endRun_pixel (p : Nat) : (s.endRun).pixel p = s.pixel p := rfl

/-! ### Registers -/

@[simp] theorem State.reg_setReg_same (x : Nibble) (b : Byte) : (s.setReg x b).reg x = b := by
  simp [State.reg, State.setReg]

theorem State.reg_setReg_other (x z : Nibble) (b : Byte) (h : z ≠ x) : (s.setReg x b).reg z = s.reg z := by
  have : x.toNat ≠ z.toNat := fun e => h (BitVec.eq_of_toNat_eq e.symm)
  simp [State.reg, State.setReg, this]

theorem State.reg_setReg (x z : Nibble) (b : Byte) : (s.setReg x b).reg z = if z = x then b else s.reg z := by
  by_cases h : z = x
  · subst h; simp
  · simp [h, State.reg_setReg_other]

/-! ### The flag is written last (spec/42_arithmetic.md R174) -/

theorem State.setFlag_reg (f : Bool) (z : Nibble) : (s.setFlag f).reg z = if z = vf then flagByte f else s.reg z := by
  simp [State.setFlag, State.reg_setReg]

/-- All a flag-writing instruction does to the registers. -/
theorem State.setResultAndFlag_reg (x : Nibble) (r : Byte) (f : Bool) (z : Nibble) :
    (s.setResultAndFlag x r f).reg z = if z = vf then flagByte f else if z = x then r else s.reg z := by
  simp [State.setResultAndFlag, State.setFlag, State.reg_setReg]

end Sys2Proof.Machine
end

