-- ==== Sys2Proof/Laws/Ops.lean ====
section
/-! SUPPORT. One lemma per shared operation that says all it can do: skips, pushes, pops, timers, memory writes, loads and
placing a word. -/

namespace Sys2Proof.Machine

variable (s : State)

/-! ### Branches, timers, keys -/

/-- A Branch is a new `pc` and nothing else. -/
theorem State.skipIf_eq (taken : Bool) : s.skipIf taken = s.setPc (if taken then s.pc + 2 else s.pc) := by
  cases taken <;> rfl

theorem countDown_toNat (b : Byte) : (countDown b).toNat = b.toNat - 1 := by
  by_cases h : b = 0x00#8
  · simp [countDown, h]
  · have : b.toNat ≠ 0 := fun e => h (BitVec.eq_of_toNat_eq (by simpa using e))
    simp only [countDown, h, if_false]
    have := b.isLt
    rw [BitVec.toNat_sub]; simp; omega

/-! ### The stack -/

/-- All a push can do. -/
theorem State.push_cases (a : Addr) :
    (∃ (h : s.sp.val < 16) (h' : s.sp.val + 1 < 17),
      s.push a = some { s with stack := s.stack.set s.sp.val a h, sp := ⟨s.sp.val + 1, h'⟩ }) ∨
    (s.sp.val = 16 ∧ s.push a = none) := by
  by_cases h : s.sp.val < 16
  · exact .inl ⟨h, by omega, by simp [State.push, h]⟩
  · have := s.sp.isLt
    exact .inr ⟨by omega, by simp [State.push, h]⟩

/-- All a pop can do. -/
theorem State.pop_cases :
    (∃ (_ : 0 < s.sp.val) (h : s.sp.val - 1 < 16) (h' : s.sp.val - 1 < 17),
      s.pop = some (s.stack[s.sp.val - 1], { s with sp := ⟨s.sp.val - 1, h'⟩ })) ∨
    (s.sp.val = 0 ∧ s.pop = none) := by
  by_cases h : 0 < s.sp.val
  · have := s.sp.isLt
    exact .inl ⟨h, by omega, by omega, by simp [State.pop, h]⟩
  · exact .inr ⟨by omega, by simp [State.pop, h]⟩

/-! ### Memory -/

/-- A read after a write (spec/00_scope.md R10). -/
theorem State.memRead_memWrite (a q : Addr) (b : Byte) :
    (s.memWrite a b).memRead q = if q = a then b else s.memRead q := by
  have e : q.toNat = a.toNat ↔ q = a := ⟨BitVec.eq_of_toNat_eq, congrArg _⟩
  simp [State.memRead, State.memWrite, cellsRead_write, e]

/-- A write keeps the canonical form of memory. -/
theorem State.memWrite_wf (a : Addr) (b : Byte) (h : Memory.wf s.config s.mem = true) :
    Memory.wf (s.memWrite a b).config (s.memWrite a b).mem = true :=
  cellsWf_write _ b a.isLt h

/-! ### Loads (spec/70_reset_and_hazards.md R261) -/

/-- A load changes `mem` alone. -/
theorem State.loadBytes_eq (a : Nat) (bytes : List Byte) :
    s.loadBytes a bytes = { s with mem := (s.loadBytes a bytes).mem } := by
  induction bytes generalizing s a with
  | nil => rfl
  | cons b rest ih =>
    unfold State.loadBytes
    split
    · rw [ih]; rfl
    · rfl

theorem State.loadBytes_wf (a : Nat) (bytes : List Byte) (h : Memory.wf s.config s.mem = true) :
    Memory.wf s.config (s.loadBytes a bytes).mem = true := by
  induction bytes generalizing s a with
  | nil => exact h
  | cons b rest ih =>
    unfold State.loadBytes
    split
    · exact ih (s.memWrite (BitVec.ofNat 12 a) b) (a + 1) (s.memWrite_wf _ _ h)
    · exact h

/-- What memory reads after a load: the loaded byte where there is one, else the byte as before. -/
theorem State.loadBytes_memRead (a : Nat) (bytes : List Byte) (q : Addr) :
    (s.loadBytes a bytes).memRead q =
      if a ≤ q.toNat then (bytes[q.toNat - a]?).getD (s.memRead q) else s.memRead q := by
  induction bytes generalizing s a with
  | nil => simp [State.loadBytes]
  | cons b rest ih =>
    unfold State.loadBytes
    have hq := q.isLt
    split
    · next ha =>
      rw [ih, State.memRead_memWrite]
      have e : q = BitVec.ofNat 12 a ↔ q.toNat = a :=
        ⟨fun e => by rw [e]; simp; omega, fun e => BitVec.eq_of_toNat_eq (by simp; omega)⟩
      rcases Nat.lt_trichotomy q.toNat a with h | h | h
      · have h1 : ¬ a + 1 ≤ q.toNat := by omega
        have h2 : ¬ a ≤ q.toNat := by omega
        have h3 : ¬ q.toNat = a := by omega
        simp [h1, h2, e, h3]
      · have h1 : ¬ a + 1 ≤ q.toNat := by omega
        simp [e, h]
      · have h1 : a + 1 ≤ q.toNat := by omega
        have h2 : a ≤ q.toNat := by omega
        have h3 : ¬ q.toNat = a := by omega
        have h4 : q.toNat - a = q.toNat - (a + 1) + 1 := by omega
        simp [h1, h2, e, h3, h4]
    · next ha =>
      have : ¬ a ≤ q.toNat := by omega
      simp [this]

/-! ### Placing a word where the next tick fetches it -/

/-- The next fetch after placing a word reads that word. -/
theorem State.placeWord_fetchWord (op : OpWord) : (s.placeWord op).fetchWord = op := by
  have hi : (s.placeWord op).memRead s.pc = highByte op := by
    show ((s.memWrite s.pc (highByte op)).memWrite (s.pc + 1) (lowByte op)).memRead s.pc = highByte op
    simp [State.memRead_memWrite]
  have lo : (s.placeWord op).memRead (s.pc + 1) = lowByte op := by
    show ((s.memWrite s.pc (highByte op)).memWrite (s.pc + 1) (lowByte op)).memRead (s.pc + 1) = lowByte op
    simp [State.memRead_memWrite]
  show wordOfBytes ((s.placeWord op).memRead s.pc) ((s.placeWord op).memRead (s.pc + 1)) = op
  rw [hi, lo, wordOfBytes_bytes]

/-! ### Sessions of the host (spec/70_reset_and_hazards.md R260, R267, R268) -/

@[simp] theorem Session.apply_reset (c : Session) : c.apply .reset = .running (hostReset c.base) := rfl

theorem Session.apply_other (c : Session) {op : HostOp} (h : op ≠ .reset) : c.apply op = c.proceed op := by
  simp [Session.apply, h]

theorem Session.run_append (c : Session) (first second : List HostOp) :
    c.run (first ++ second) = (c.run first).run second := by
  induction first generalizing c with
  | nil => rfl
  | cons op rest ih => exact ih (c.apply op)

theorem hostStep_reset : hostStep .reset s = .next (hostReset s) := by
  simp [hostStep, applyHostOp, done]

/-- All an operation does to a running machine. -/
theorem Session.apply_running (op : HostOp) : (Session.running s).apply op = .after s (hostStep op s) := by
  by_cases h : op = .reset
  · subst h; rw [hostStep_reset]; rfl
  · rw [Session.apply_other _ h]; rfl

/-- A run goes on after an operation that gives a next state. -/
theorem hostRun_cons {op : HostOp} {t : State} (h : hostStep op s = .next t) (ops : List HostOp) :
    hostRun (op :: ops) s = hostRun ops t := by
  simp only [hostRun, Session.run, Session.apply_running, h]; rfl

/-- A faulted session stays faulted without a `Reset`. -/
theorem Session.run_faulted (f : Fault) (ops : List HostOp) (h : .reset ∉ ops) :
    (Session.faulted f s).run ops = .faulted f s := by
  induction ops with
  | nil => rfl
  | cons op rest ih =>
    have hne : op ≠ .reset := fun e => h (by simp [e])
    have hr : .reset ∉ rest := fun e => h (by simp [e])
    simp only [Session.run, Session.apply_other _ hne]
    exact ih hr

/-- A run that ends with `Reset` ends in a reset state, whatever stops came before. -/
theorem hostRun_reset_last (ops : List HostOp) :
    hostRun (ops ++ [.reset]) s = .next (hostReset ((Session.running s).run ops).base) := by
  simp [hostRun, Session.run_append, Session.run, Session.outcome, done]

/-- What every host operation keeps, a session keeps: the induction over a run. -/
theorem Session.run_keeps {P : State → Prop} (keeps : ∀ op s t, P s → hostStep op s = .next t → P t)
    (ops : List HostOp) (c : Session) (h : P c.base) : P (c.run ops).base := by
  induction ops generalizing c with
  | nil => exact h
  | cons op rest ih =>
    refine ih _ ?_
    by_cases e : op = .reset
    · subst e; exact keeps .reset _ _ h (hostStep_reset _)
    · rw [Session.apply_other _ e]
      cases c with
      | running s =>
        simp only [Session.proceed]
        cases o : hostStep op s with
        | next t => exact keeps op s t h o
        | fault f => exact h
        | refused r => exact h
      | faulted f s => exact h
      | refused r s => exact h

/-- A run that gives a next state gives the session's state. -/
theorem hostRun_next {ops : List HostOp} {t : State} (h : hostRun ops s = .next t) :
    ((Session.running s).run ops).base = t := by
  unfold hostRun at h
  cases e : (Session.running s).run ops <;> simp [e, Session.outcome, done, raise] at h
  simpa [Session.base] using h

end Sys2Proof.Machine
end

