-- ==== Sys2Proof/Laws/Exec.lean ====
section
/-! SUPPORT. What the execute step answers, instruction by instruction, in terms of the named updates: the one place where
`exec` and its meanings are unfolded. -/

namespace Sys2Proof.Machine

variable (s : State) (x y n : Nibble) (kk : Byte) (nnn : Addr)

@[simp] theorem exec_graphicsClear : exec .graphicsClear s = .next (s.setDisp []) := rfl
@[simp] theorem exec_exit : exec .exit s = .next s.endRun := rfl
@[simp] theorem exec_jump : exec (.jump nnn) s = .next (s.setPc nnn) := rfl
@[simp] theorem exec_jumpV0 : exec (.jumpV0 nnn) s = .next (s.setPc (s.offsetTarget nnn)) := rfl
@[simp] theorem exec_skipEqVxKk : exec (.skipEqVxKk x kk) s = .next (s.skipIf (s.reg x == kk)) := rfl
@[simp] theorem exec_skipNeVxKk : exec (.skipNeVxKk x kk) s = .next (s.skipIf (s.reg x != kk)) := rfl
@[simp] theorem exec_skipEqVxVy : exec (.skipEqVxVy x y) s = .next (s.skipIf (s.reg x == s.reg y)) := rfl
@[simp] theorem exec_skipNeVxVy : exec (.skipNeVxVy x y) s = .next (s.skipIf (s.reg x != s.reg y)) := rfl
@[simp] theorem exec_setVxKk : exec (.setVxKk x kk) s = .next (s.setReg x kk) := rfl
@[simp] theorem exec_addVxKk : exec (.addVxKk x kk) s = .next (s.setReg x (s.reg x + kk)) := rfl
@[simp] theorem exec_setVxVy : exec (.setVxVy x y) s = .next (s.setReg x (s.reg y)) := rfl
@[simp] theorem exec_orVxVy : exec (.orVxVy x y) s = .next (s.setReg x (s.reg x ||| s.reg y)) := rfl
@[simp] theorem exec_andVxVy : exec (.andVxVy x y) s = .next (s.setReg x (s.reg x &&& s.reg y)) := rfl
@[simp] theorem exec_xorVxVy : exec (.xorVxVy x y) s = .next (s.setReg x (s.reg x ^^^ s.reg y)) := rfl
@[simp] theorem exec_addcVxVy : exec (.addcVxVy x y) s =
    .next (s.setResultAndFlag x (s.reg x + s.reg y) (carryOut (s.reg x) (s.reg y))) := rfl
@[simp] theorem exec_subVxVy : exec (.subVxVy x y) s =
    .next (s.setResultAndFlag x (s.reg x - s.reg y) (noBorrow (s.reg x) (s.reg y))) := rfl
@[simp] theorem exec_subrVxVy : exec (.subrVxVy x y) s =
    .next (s.setResultAndFlag x (s.reg y - s.reg x) (noBorrow (s.reg y) (s.reg x))) := rfl
@[simp] theorem exec_shrVxVy : exec (.shrVxVy x y) s =
    .next (s.setResultAndFlag x (s.shiftInput x y >>> 1) (shiftedOutRight (s.shiftInput x y))) := rfl
@[simp] theorem exec_shlVxVy : exec (.shlVxVy x y) s =
    .next (s.setResultAndFlag x (s.shiftInput x y <<< 1) (shiftedOutLeft (s.shiftInput x y))) := rfl
@[simp] theorem exec_randVxKk : exec (.randVxKk x kk) s = .next (s.takeDraw.setReg x (s.nextDraw &&& kk)) := rfl
@[simp] theorem exec_timerGet : exec (.timerGet x) s = .next (s.setReg x s.dt) := rfl
@[simp] theorem exec_setDelay : exec (.setDelay x) s = .next (s.setDt (s.reg x)) := rfl
@[simp] theorem exec_setSound : exec (.setSound x) s = .next (s.setSt (s.reg x)) := rfl
@[simp] theorem exec_indexSet : exec (.indexSet nnn) s = .next (s.setI nnn) := rfl
@[simp] theorem exec_indexAdd : exec (.indexAdd x) s = .next (s.setI (s.indexSum x)) := rfl
@[simp] theorem exec_fontVx : exec (.fontVx x) s = .next (s.setI (glyphAddress s.config (s.reg x))) := rfl
@[simp] theorem exec_keyAwait : exec (.keyAwait x) s = .next (s.awaitKey x) := rfl

/-- All AwaitKey can do (spec/45_key_and_system.md R220). -/
theorem State.awaitKey_cases :
    (∃ k, s.key = some k ∧ s.awaitKey x = s.setReg x (keyByte k)) ∨
    (s.key = none ∧ s.awaitKey x = s.setPc (s.pc - 2)) := by
  cases h : s.key with
  | none => exact .inr ⟨rfl, by simp [State.awaitKey, h, State.rewindPc]⟩
  | some k => exact .inl ⟨k, rfl, by simp [State.awaitKey, h]⟩

/-- All SysCall can do (R222). -/
theorem exec_sys : exec (.sys nnn) s = if s.config.sysCallFaults then .fault (.sysCall nnn) else .next s := rfl

/-- All Draw does (spec/43_graphics.md R191, R194). -/
theorem exec_graphicsDraw : exec (.graphicsDraw x y n) s =
    .next (if s.config.drawWritesVf then (s.setDisp (s.drawResult x y n).1).setFlag (s.drawResult x y n).2
      else s.setDisp (s.drawResult x y n).1) := rfl

/-- All Call can do (spec/41_flow.md R142). -/
theorem exec_call_cases :
    (∃ (h : s.sp.val < 16) (h' : s.sp.val + 1 < 17), exec (.call nnn) s =
      .next { s with stack := s.stack.set s.sp.val s.pc h, sp := ⟨s.sp.val + 1, h'⟩, pc := nnn }) ∨
    (s.sp.val = 16 ∧ exec (.call nnn) s = .fault .stackOverflow) := by
  rcases s.push_cases s.pc with ⟨h, h', e⟩ | ⟨h, e⟩
  · exact .inl ⟨h, h', by simp only [exec, execCall, e]; rfl⟩
  · exact .inr ⟨h, by simp only [exec, execCall, e]; rfl⟩

/-- All Return can do (R143). -/
theorem exec_ret_cases :
    (∃ (_ : 0 < s.sp.val) (h : s.sp.val - 1 < 16) (h' : s.sp.val - 1 < 17), exec .ret s =
      .next { s with sp := ⟨s.sp.val - 1, h'⟩, pc := s.stack[s.sp.val - 1] }) ∨
    (s.sp.val = 0 ∧ exec .ret s = .fault .stackUnderflow) := by
  rcases s.pop_cases with ⟨p, h, h', e⟩ | ⟨h, e⟩
  · exact .inl ⟨p, h, h', by simp only [exec, execRet, e]; rfl⟩
  · exact .inr ⟨h, by simp only [exec, execRet, e]; rfl⟩

/-! ### The tick (spec/40_tick_cycle.md R127) -/

/-- All a tick can do. -/
theorem tick_cases (keyIn : Option Nibble) :
    (s.exited = true ∧ tick keyIn s = .refused .runEnded) ∨
    (s.exited = false ∧ decode s.fetchWord = .error (.invalidOpCode s.fetchWord) ∧
      tick keyIn s = .fault (.invalidOpCode s.fetchWord)) ∨
    (s.exited = false ∧ ∃ i, decode s.fetchWord = .ok i ∧ tick keyIn s = exec i (s.beforeExecute keyIn)) := by
  cases h : s.exited with
  | true => exact .inl ⟨rfl, by simp [tick, h]⟩
  | false =>
    cases hd : decode s.fetchWord with
    | error e =>
      have := decode_error_word hd
      subst this
      exact .inr (.inl ⟨rfl, rfl, by simp [tick, h, hd, raise, decodeFault]⟩)
    | ok i => exact .inr (.inr ⟨rfl, i, rfl, by simp [tick, h, hd]⟩)

/-- What a tick does before it executes, as one record. -/
theorem State.beforeExecute_eq (keyIn : Option Nibble) :
    s.beforeExecute keyIn =
      { s with key := keyIn, dt := countDown s.dt, st := countDown s.st, pc := s.pc + 2 } := rfl

end Sys2Proof.Machine
end

