-- ==== Sys2Proof/Laws/Graphics.lean ====
section
/-! SUPPORT. The blit pixel by pixel: a visible sprite bit of 1 toggles its pixel, every other pixel is as before, and a
collision is a covered pixel that was on (spec/43_graphics.md R193); and what the blit keeps of the display's form. -/

namespace Sys2Proof.Machine

/-- A pixel under a sprite bit of 1. -/
def toggled (b : Byte) : Byte := if b = 0x00#8 then 0xFF#8 else 0x00#8

theorem displayRead_write (d : List Host.Cell) (p q : Nat) (b : Byte) :
    displayRead (displayWrite d p b) q = if q = p then b else displayRead d q :=
  cellsRead_write pixelOff d p q b

theorem togglePixel_read (p q : Nat) (acc : Blit) :
    displayRead (togglePixel p acc).1 q = if q = p then toggled (displayRead acc.1 q) else displayRead acc.1 q := by
  by_cases h : displayRead acc.1 p = 0x00#8
  · simp only [togglePixel, h, if_true, displayRead_write]
    split
    · next e => subst e; simp [toggled, h]
    · rfl
  · simp only [togglePixel, h, if_false, displayRead_write]
    split
    · next e => subst e; simp [toggled, h]
    · rfl

theorem togglePixel_collision (p : Nat) (acc : Blit) :
    (togglePixel p acc).2 = true ↔ acc.2 = true ∨ displayRead acc.1 p ≠ 0x00#8 := by
  by_cases h : displayRead acc.1 p = 0x00#8 <;> simp [togglePixel, h]

/-- Pixel `p` lies under a bit of 1, in one of the columns `cs`, of a sprite row at display row `yy`. -/
def rowCovers (row : Byte) (x0 yy : Nat) (cs : List Nat) (p : Nat) : Prop :=
  ∃ c ∈ cs, x0 + c < 64 ∧ spriteBit row c = true ∧ p = pixelIndex (x0 + c) yy

/-- Pixel `p` lies under a visible bit of 1 of the sprite (R193). -/
def spriteCovers (rows : List Byte) (x0 y0 p : Nat) : Prop :=
  ∃ (r : Nat) (h : r < rows.length), y0 + r < 32 ∧ rowCovers rows[r] x0 (y0 + r) (List.range 8) p

theorem pixelIndex_injective {c c' r r' : Nat} (h : c < 64) (h' : c' < 64) (e : pixelIndex c r = pixelIndex c' r') :
    c = c' ∧ r = r' := by
  unfold pixelIndex at e; omega

/-- What one pass does, as two facts: the pixels it covers are toggled and the others are as before; and it
collides when a covered pixel was on. -/
structure BlitStep (covers : Nat → Prop) (acc out : Blit) : Prop where
  on_covered : ∀ q, covers q → displayRead out.1 q = toggled (displayRead acc.1 q)
  on_other : ∀ q, ¬ covers q → displayRead out.1 q = displayRead acc.1 q
  collides : out.2 = true ↔ acc.2 = true ∨ ∃ q, covers q ∧ displayRead acc.1 q ≠ 0x00#8

theorem BlitStep.none {covers : Nat → Prop} (h : ∀ q, ¬ covers q) (acc : Blit) : BlitStep covers acc acc :=
  ⟨fun q hq => absurd hq (h q), fun _ _ => rfl, by simp [h]⟩

/-- Two passes over different pixels are one pass over both. -/
theorem BlitStep.trans {c₁ c₂ c : Nat → Prop} {a b d : Blit} (h₁ : BlitStep c₁ a b) (h₂ : BlitStep c₂ b d)
    (apart : ∀ q, c₁ q → ¬ c₂ q) (both : ∀ q, c q ↔ c₁ q ∨ c₂ q) : BlitStep c a d := by
  refine ⟨fun q hq => ?_, fun q hq => ?_, ?_⟩
  · rcases (both q).mp hq with hq | hq
    · rw [h₂.on_other q (apart q hq), h₁.on_covered q hq]
    · rw [h₂.on_covered q hq, h₁.on_other q (fun h => apart q h hq)]
  · have n₁ : ¬ c₁ q := fun h => hq ((both q).mpr (.inl h))
    have n₂ : ¬ c₂ q := fun h => hq ((both q).mpr (.inr h))
    rw [h₂.on_other q n₂, h₁.on_other q n₁]
  · rw [h₂.collides, h₁.collides, or_assoc]
    refine or_congr_right ⟨?_, ?_⟩
    · rintro (⟨q, hq, hn⟩ | ⟨q, hq, hn⟩)
      · exact ⟨q, (both q).mpr (.inl hq), hn⟩
      · exact ⟨q, (both q).mpr (.inr hq), by rwa [h₁.on_other q (fun h => apart q h hq)] at hn⟩
    · rintro ⟨q, hq, hn⟩
      rcases (both q).mp hq with hq | hq
      · exact .inl ⟨q, hq, hn⟩
      · exact .inr ⟨q, hq, by rwa [h₁.on_other q (fun h => apart q h hq)]⟩

theorem togglePixel_step (p : Nat) (acc : Blit) : BlitStep (· = p) acc (togglePixel p acc) := by
  refine ⟨fun q hq => by simp [togglePixel_read, hq], fun q hq => by simp [togglePixel_read, hq], ?_⟩
  simp [togglePixel_collision]

theorem blitColumn_step (row : Byte) (x0 yy c : Nat) (acc : Blit) :
    BlitStep (rowCovers row x0 yy [c]) acc (blitColumn row x0 yy c acc) := by
  by_cases hx : x0 + c < 64
  · by_cases hb : spriteBit row c = true
    · have e : rowCovers row x0 yy [c] = (· = pixelIndex (x0 + c) yy) := by
        funext q; simp [rowCovers, hx, hb]
      rw [e]
      simpa [blitColumn, hx, hb] using togglePixel_step _ acc
    · simpa [blitColumn, hx, hb] using BlitStep.none (by simp [rowCovers, hb]) acc
  · simpa [blitColumn, hx] using BlitStep.none (by simp [rowCovers, hx]) acc

theorem blitColumns_step (row : Byte) (x0 yy : Nat) (cs : List Nat) (hcs : cs.Nodup) (acc : Blit) :
    BlitStep (rowCovers row x0 yy cs) acc (blitColumns row x0 yy cs acc) := by
  induction cs generalizing acc with
  | nil => exact BlitStep.none (by simp [rowCovers]) acc
  | cons c rest ih =>
    obtain ⟨hc, hrest⟩ := List.nodup_cons.mp hcs
    refine (blitColumn_step row x0 yy c acc).trans (ih hrest _) ?_ ?_
    · rintro q ⟨c₁, h₁, hx₁, -, rfl⟩ ⟨c₂, h₂, hx₂, -, e⟩
      have := (pixelIndex_injective hx₁ hx₂ e).1
      have : c₁ = c₂ := by omega
      simp_all
    · intro q; simp [rowCovers]

theorem blitRow_step (row : Byte) (x0 yy : Nat) (acc : Blit) :
    BlitStep (fun q => yy < 32 ∧ rowCovers row x0 yy (List.range 8) q) acc (blitRow row x0 yy acc) := by
  by_cases h : yy < 32
  · simpa [blitRow, h] using blitColumns_step row x0 yy _ (List.nodup_range) acc
  · simpa [blitRow, h] using BlitStep.none (covers := fun _ => False) (by simp) acc

theorem blitRows_step (x0 y0 : Nat) (rows : List Byte) (acc : Blit) :
    BlitStep (spriteCovers rows x0 y0) acc (blitRows x0 y0 rows acc) := by
  induction rows generalizing y0 acc with
  | nil => exact BlitStep.none (by simp [spriteCovers]) acc
  | cons row rest ih =>
    refine (blitRow_step row x0 y0 acc).trans (ih (y0 + 1) _) ?_ ?_
    · rintro q ⟨-, c₁, -, hx₁, -, rfl⟩ ⟨r, -, -, c₂, -, hx₂, -, e⟩
      have := (pixelIndex_injective hx₁ hx₂ e).2
      omega
    · intro q
      constructor
      · rintro ⟨r, hr, hy, hc⟩
        cases r with
        | zero => exact .inl ⟨by simpa using hy, by simpa using hc⟩
        | succ r =>
          refine .inr ⟨r, by simpa using hr, by omega, ?_⟩
          have e : y0 + 1 + r = y0 + (r + 1) := by omega
          simpa [e] using hc
      · rintro (⟨hy, hc⟩ | ⟨r, hr, hy, hc⟩)
        · exact ⟨0, by simp, by simpa using hy, by simpa using hc⟩
        · refine ⟨r + 1, by simpa using hr, by omega, ?_⟩
          have e : y0 + 1 + r = y0 + (r + 1) := by omega
          simpa [e] using hc

/-- All that `Blit(rows, x0, y0)` does (R193). -/
theorem blit_step (d : List Host.Cell) (rows : List Byte) (x0 y0 : Nat) :
    BlitStep (spriteCovers rows x0 y0) (d, false) (blit d rows x0 y0) :=
  blitRows_step x0 y0 rows (d, false)

/-! ### The form of the display is kept -/

theorem pixelsOnOff_iff (d : List Host.Cell) :
    pixelsOnOff d = true ↔ ∀ c ∈ d, c.2 = 0x00#8 ∨ c.2 = 0xFF#8 := by
  simp [pixelsOnOff]

theorem pixelsOnOff_write {d : List Host.Cell} (p : Nat) {b : Byte} (hb : b = 0x00#8 ∨ b = 0xFF#8)
    (h : pixelsOnOff d = true) : pixelsOnOff (displayWrite d p b) = true := by
  rw [pixelsOnOff_iff] at h ⊢
  intro c hc
  rcases mem_cellsWrite pixelOff hc with rfl | hc
  · exact hb
  · exact h c hc

/-- Every pixel of such a display reads `0x00` or `0xFF` (spec/10_state.md R35). -/
theorem displayRead_onOff {d : List Host.Cell} (h : pixelsOnOff d = true) (p : Nat) :
    displayRead d p = 0x00#8 ∨ displayRead d p = 0xFF#8 := by
  rcases cellsRead_cases pixelOff d p with e | e
  · exact .inl e
  · exact (pixelsOnOff_iff d).mp h _ e

/-- A display in canonical form with bytes `0x00` and `0xFF` only. -/
def displayOk (d : List Host.Cell) : Prop := Display.wf d = true ∧ pixelsOnOff d = true

theorem displayOk_write {d : List Host.Cell} {p : Nat} (hp : p < 2048) {b : Byte} (hb : b = 0x00#8 ∨ b = 0xFF#8)
    (h : displayOk d) : displayOk (displayWrite d p b) :=
  ⟨cellsWf_write pixelOff b hp h.1, pixelsOnOff_write p hb h.2⟩

theorem displayOk_toggle {p : Nat} (hp : p < 2048) {acc : Blit} (h : displayOk acc.1) :
    displayOk (togglePixel p acc).1 := by
  unfold togglePixel
  split
  · exact displayOk_write hp (.inr rfl) h
  · exact displayOk_write hp (.inl rfl) h

theorem displayOk_column {row : Byte} {x0 yy c : Nat} (hy : yy < 32) {acc : Blit} (h : displayOk acc.1) :
    displayOk (blitColumn row x0 yy c acc).1 := by
  unfold blitColumn
  split
  · next hx =>
    split
    · exact displayOk_toggle (by unfold pixelIndex; omega) h
    · exact h
  · exact h

theorem displayOk_columns {row : Byte} {x0 yy : Nat} (hy : yy < 32) (cs : List Nat) {acc : Blit}
    (h : displayOk acc.1) : displayOk (blitColumns row x0 yy cs acc).1 := by
  induction cs generalizing acc with
  | nil => exact h
  | cons c rest ih => exact ih (displayOk_column hy h)

theorem displayOk_rows (x0 yy : Nat) (rows : List Byte) {acc : Blit} (h : displayOk acc.1) :
    displayOk (blitRows x0 yy rows acc).1 := by
  induction rows generalizing yy acc with
  | nil => exact h
  | cons row rest ih =>
    refine ih (yy + 1) ?_
    unfold blitRow
    split
    · next hy => exact displayOk_columns hy _ h
    · exact h

/-- The blit keeps the display's form. -/
theorem displayOk_blit {d : List Host.Cell} (rows : List Byte) (x0 y0 : Nat) (h : displayOk d) :
    displayOk (blit d rows x0 y0).1 :=
  displayOk_rows x0 y0 rows (acc := (d, false)) h

end Sys2Proof.Machine
end

