-- ==== Sys2Proof/Laws/PerInstr.lean ====
section
/-! SUPPORT. The per-instruction family TableRow: the encoding of every instruction value selects the instruction's own row
of the opcode map (spec/30_encoding.md R90, R96). -/

namespace Sys2Proof

/-! ### Words under the masks of R90 -/

theorem getLsbD_fifteen {k : Nat} (h : k < 4) : (0xF#4).getLsbD k = true := by
  interval_cases k <;> rfl

theorem getLsbD_ff {k : Nat} (h : k < 8) : (0xFF#8).getLsbD k = true := by
  interval_cases k <;> rfl

theorem packNnn_mask (f : Nibble) (nnn : Addr) : packNnn f nnn &&& 0xF000#16 = packNnn f 0#12 := by
  have m : (0xF000#16) = packNnn 0xF#4 0#12 := by decide
  rw [m]
  refine BitVec.eq_of_getLsbD_eq fun k hk => ?_
  rw [BitVec.getLsbD_and, getLsbD_packNnn, getLsbD_packNnn, getLsbD_packNnn]
  by_cases h : k < 12
  · simp [h]
  · have h' : k - 12 < 4 := by omega
    simp only [h, if_false, getLsbD_fifteen h', Bool.and_true]

theorem packXkk_mask (f x : Nibble) (kk : Byte) : packXkk f x kk &&& 0xF000#16 = packNnn f 0#12 := by
  have := packNnn_mask f (x ++ kk)
  rwa [show packNnn f (x ++ kk) = packXkk f x kk from ?_] at this
  refine BitVec.eq_of_getLsbD_eq fun k hk => ?_
  rw [getLsbD_packNnn, getLsbD_packXkk]
  have a : ((x ++ kk : Addr)).getLsbD k = if k < 8 then kk.getLsbD k else x.getLsbD (k - 8) := BitVec.getLsbD_append
  rw [a]
  by_cases h : k < 8
  · simp [h, show k < 12 by omega]
  · by_cases h' : k - 8 < 4
    · simp [h, h', show k < 12 by omega]
    · simp [h, h', show ¬ k < 12 by omega, show k - 12 = k - 8 - 4 by omega]

theorem packXkk_mask_kk (f x : Nibble) (kk : Byte) : packXkk f x kk &&& 0xF0FF#16 = packXkk f 0#4 kk := by
  have m : (0xF0FF#16) = packXkk 0xF#4 0#4 0xFF#8 := by decide
  rw [m]
  refine BitVec.eq_of_getLsbD_eq fun k hk => ?_
  rw [BitVec.getLsbD_and, getLsbD_packXkk, getLsbD_packXkk, getLsbD_packXkk]
  by_cases h : k < 8
  · simp only [h, if_true, getLsbD_ff h, Bool.and_true]
  · by_cases h' : k - 8 < 4
    · simp [h, h']
    · have h'' : k - 8 - 4 < 4 := by omega
      simp only [h, h', if_false, getLsbD_fifteen h'', Bool.and_true]

theorem packXyn_mask_n (f x y n : Nibble) : packXyn f x y n &&& 0xF00F#16 = packXyn f 0#4 0#4 n := by
  have m : (0xF00F#16) = packXyn 0xF#4 0#4 0#4 0xF#4 := by decide
  rw [m]
  refine BitVec.eq_of_getLsbD_eq fun k hk => ?_
  simp only [packXyn_eq_packXkk, BitVec.getLsbD_and, getLsbD_packXkk]
  rw [getLsbD_byte_append, getLsbD_byte_append, getLsbD_byte_append]
  by_cases h : k < 8
  · by_cases h' : k < 4
    · simp only [h, h', if_true, getLsbD_fifteen h', Bool.and_true]
    · simp [h, h']
  · by_cases h' : k - 8 < 4
    · simp [h, h']
    · have h'' : k - 8 - 4 < 4 := by omega
      simp only [h, h', if_false, getLsbD_fifteen h'', Bool.and_true]

/-- The row with a number in the opcode map, as a statement about a word. -/
def selectsRow (number : Nat) (op : OpWord) : Prop := ∃ r ∈ opcodeRows, r.number = number ∧ r.selects op = true

theorem selectsRow_of {op : OpWord} (r : OpcodeRow) (h : r ∈ opcodeRows) (e : op &&& r.mask = r.value) :
    selectsRow r.number op :=
  ⟨r, h, rfl, by simp [OpcodeRow.selects, e]⟩

namespace Laws.TableRow

/-- The encoding of an instruction selects its own row of R90. -/
def Statement (i : Instr) : Prop := selectsRow i.rowNumber (encode i)

theorem graphicsClear : Statement .graphicsClear :=
  selectsRow_of ⟨1, 0xFFFF#16, 0x00E0#16, .fixed⟩ (by decide) (by decide)

theorem ret : Statement .ret :=
  selectsRow_of ⟨2, 0xFFFF#16, 0x00EE#16, .fixed⟩ (by decide) (by decide)

theorem exit : Statement .exit :=
  selectsRow_of ⟨3, 0xFFFF#16, 0x00FD#16, .fixed⟩ (by decide) (by decide)

theorem sys (nnn : Addr) : Statement (.sys nnn) :=
  selectsRow_of ⟨4, 0xF000#16, 0x0000#16, .nnn⟩ (by decide) (packNnn_mask _ _)

theorem jump (nnn : Addr) : Statement (.jump nnn) :=
  selectsRow_of ⟨5, 0xF000#16, 0x1000#16, .nnn⟩ (by decide) (packNnn_mask _ _)

theorem call (nnn : Addr) : Statement (.call nnn) :=
  selectsRow_of ⟨6, 0xF000#16, 0x2000#16, .nnn⟩ (by decide) (packNnn_mask _ _)

theorem skipEqVxKk (x : Nibble) (kk : Byte) : Statement (.skipEqVxKk x kk) :=
  selectsRow_of ⟨7, 0xF000#16, 0x3000#16, .xkk⟩ (by decide) (packXkk_mask _ _ _)

theorem skipNeVxKk (x : Nibble) (kk : Byte) : Statement (.skipNeVxKk x kk) :=
  selectsRow_of ⟨8, 0xF000#16, 0x4000#16, .xkk⟩ (by decide) (packXkk_mask _ _ _)

theorem skipEqVxVy (x : Nibble) (y : Nibble) : Statement (.skipEqVxVy x y) :=
  selectsRow_of ⟨9, 0xF00F#16, 0x5000#16, .xy⟩ (by decide) (packXyn_mask_n _ _ _ _)

theorem setVxKk (x : Nibble) (kk : Byte) : Statement (.setVxKk x kk) :=
  selectsRow_of ⟨10, 0xF000#16, 0x6000#16, .xkk⟩ (by decide) (packXkk_mask _ _ _)

theorem addVxKk (x : Nibble) (kk : Byte) : Statement (.addVxKk x kk) :=
  selectsRow_of ⟨11, 0xF000#16, 0x7000#16, .xkk⟩ (by decide) (packXkk_mask _ _ _)

theorem setVxVy (x : Nibble) (y : Nibble) : Statement (.setVxVy x y) :=
  selectsRow_of ⟨12, 0xF00F#16, 0x8000#16, .xy⟩ (by decide) (packXyn_mask_n _ _ _ _)

theorem orVxVy (x : Nibble) (y : Nibble) : Statement (.orVxVy x y) :=
  selectsRow_of ⟨13, 0xF00F#16, 0x8001#16, .xy⟩ (by decide) (packXyn_mask_n _ _ _ _)

theorem andVxVy (x : Nibble) (y : Nibble) : Statement (.andVxVy x y) :=
  selectsRow_of ⟨14, 0xF00F#16, 0x8002#16, .xy⟩ (by decide) (packXyn_mask_n _ _ _ _)

theorem xorVxVy (x : Nibble) (y : Nibble) : Statement (.xorVxVy x y) :=
  selectsRow_of ⟨15, 0xF00F#16, 0x8003#16, .xy⟩ (by decide) (packXyn_mask_n _ _ _ _)

theorem addcVxVy (x : Nibble) (y : Nibble) : Statement (.addcVxVy x y) :=
  selectsRow_of ⟨16, 0xF00F#16, 0x8004#16, .xy⟩ (by decide) (packXyn_mask_n _ _ _ _)

theorem subVxVy (x : Nibble) (y : Nibble) : Statement (.subVxVy x y) :=
  selectsRow_of ⟨17, 0xF00F#16, 0x8005#16, .xy⟩ (by decide) (packXyn_mask_n _ _ _ _)

theorem shrVxVy (x : Nibble) (y : Nibble) : Statement (.shrVxVy x y) :=
  selectsRow_of ⟨18, 0xF00F#16, 0x8006#16, .xy⟩ (by decide) (packXyn_mask_n _ _ _ _)

theorem subrVxVy (x : Nibble) (y : Nibble) : Statement (.subrVxVy x y) :=
  selectsRow_of ⟨19, 0xF00F#16, 0x8007#16, .xy⟩ (by decide) (packXyn_mask_n _ _ _ _)

theorem shlVxVy (x : Nibble) (y : Nibble) : Statement (.shlVxVy x y) :=
  selectsRow_of ⟨20, 0xF00F#16, 0x800E#16, .xy⟩ (by decide) (packXyn_mask_n _ _ _ _)

theorem skipNeVxVy (x : Nibble) (y : Nibble) : Statement (.skipNeVxVy x y) :=
  selectsRow_of ⟨21, 0xF00F#16, 0x9000#16, .xy⟩ (by decide) (packXyn_mask_n _ _ _ _)

theorem indexSet (nnn : Addr) : Statement (.indexSet nnn) :=
  selectsRow_of ⟨22, 0xF000#16, 0xA000#16, .nnn⟩ (by decide) (packNnn_mask _ _)

theorem jumpV0 (nnn : Addr) : Statement (.jumpV0 nnn) :=
  selectsRow_of ⟨23, 0xF000#16, 0xB000#16, .nnn⟩ (by decide) (packNnn_mask _ _)

theorem randVxKk (x : Nibble) (kk : Byte) : Statement (.randVxKk x kk) :=
  selectsRow_of ⟨24, 0xF000#16, 0xC000#16, .xkk⟩ (by decide) (packXkk_mask _ _ _)

theorem graphicsDraw (x : Nibble) (y : Nibble) (n : Nibble) : Statement (.graphicsDraw x y n) :=
  selectsRow_of ⟨25, 0xF000#16, 0xD000#16, .xyn⟩ (by decide) (packXkk_mask _ _ _)

theorem timerGet (x : Nibble) : Statement (.timerGet x) :=
  selectsRow_of ⟨26, 0xF0FF#16, 0xF007#16, .x⟩ (by decide) (packXkk_mask_kk _ _ _)

theorem keyAwait (x : Nibble) : Statement (.keyAwait x) :=
  selectsRow_of ⟨27, 0xF0FF#16, 0xF00A#16, .x⟩ (by decide) (packXkk_mask_kk _ _ _)

theorem setDelay (x : Nibble) : Statement (.setDelay x) :=
  selectsRow_of ⟨28, 0xF0FF#16, 0xF015#16, .x⟩ (by decide) (packXkk_mask_kk _ _ _)

theorem setSound (x : Nibble) : Statement (.setSound x) :=
  selectsRow_of ⟨29, 0xF0FF#16, 0xF018#16, .x⟩ (by decide) (packXkk_mask_kk _ _ _)

theorem indexAdd (x : Nibble) : Statement (.indexAdd x) :=
  selectsRow_of ⟨30, 0xF0FF#16, 0xF01E#16, .x⟩ (by decide) (packXkk_mask_kk _ _ _)

theorem fontVx (x : Nibble) : Statement (.fontVx x) :=
  selectsRow_of ⟨31, 0xF0FF#16, 0xF029#16, .x⟩ (by decide) (packXkk_mask_kk _ _ _)

end Laws.TableRow

end Sys2Proof
end

