-- ==== Sys2Proof/Tests/Slice0.lean ====
section
/-! SUPPORT. Tests: the smoke test of well-formedness, words written out bit by bit, one step each of the worked examples
of spec/95_test_vectors.md (named there T, F, A, G, X, K, H, S), and a witness for the hypotheses of every statement. -/

namespace Sys2Proof.Tests

open Sys2Proof Sys2Proof.Machine

/-! ### Helpers -/

/-- The configuration of the test vectors: the defaults, and a setting of `SHIFT_USES_VY`. -/
def vectorConfig (shiftUsesVy : Bool) : Config := { configAtReset with shiftUsesVy := shiftUsesVy }

/-- The reset state of the test vectors (`SHIFT_USES_VY = false`). -/
def blank : State := State.resetWith (vectorConfig false)

/-- The state with a word at `a` and `pc = a`. -/
def wordAt (a : Addr) (op : OpWord) (s : State) : State := { s with pc := a }.placeWord op

/-- The state after `Tick(none)` over a word at `0x200`. -/
def after (op : OpWord) (s : State) : Option State := stateAfterTick none (wordAt 0x200#12 op s)

/-- The state after `Tick(none)` over a word at `0x200` with two registers set before. -/
def afterRegs (x : Nibble) (a : Byte) (y : Nibble) (b : Byte) (op : OpWord) : Option State :=
  after op ((blank.setReg x a).setReg y b)

/-- The same under `SHIFT_USES_VY = true`. -/
def afterRegsVy (x : Nibble) (a : Byte) (y : Nibble) (b : Byte) (op : OpWord) : Option State :=
  after op (((State.resetWith (vectorConfig true)).setReg x a).setReg y b)

/-- A register after a tick. -/
def regOf (x : Nibble) (o : Option State) : Option Byte := o.map (fun t => t.reg x)

/-- `pc` after a tick. -/
def pcOf (o : Option State) : Option Addr := o.map State.pc

/-- The pixels that are on, by index, after a tick. -/
def onOf (o : Option State) : Option (List Nat) := o.map (fun t => t.disp.map Prod.fst)

/-- Sprite rows at `I = 0x300` and two registers. -/
def sprite (rows : List Byte) (a b : Byte) : State :=
  ((hostLoad 0x300#12 rows blank).setI 0x300#12 |>.setReg 0x0#4 a).setReg 0x1#4 b

/-! ### Well-formedness refuses the three SysCalls of R96 -/

theorem test_sys_0E0_ill_formed : (Instr.sys 0x0E0#12).wellFormed = false := by decide
theorem test_sys_0EE_ill_formed : (Instr.sys 0x0EE#12).wellFormed = false := by decide
theorem test_sys_0FD_ill_formed : (Instr.sys 0x0FD#12).wellFormed = false := by decide
theorem test_sys_0E1_well_formed : (Instr.sys 0x0E1#12).wellFormed = true := by decide

/-! ### Every constructor's decoding, words written out from R81, R82 and R90 (95_test_vectors.md 2.1) -/

theorem test_decode_graphicsClear : decode 0b0000000011100000#16 = .ok .graphicsClear := by decide
theorem test_decode_ret : decode 0b0000000011101110#16 = .ok .ret := by decide
theorem test_decode_exit : decode 0b0000000011111101#16 = .ok .exit := by decide
theorem test_decode_sys : decode 0b0000000011111110#16 = .ok (.sys 0x0FE#12) := by decide
theorem test_decode_jump : decode 0b0001101010111100#16 = .ok (.jump 0xABC#12) := by decide
theorem test_decode_call : decode 0b0010101010111100#16 = .ok (.call 0xABC#12) := by decide
theorem test_decode_skipEqVxKk : decode 0b0011101011111110#16 = .ok (.skipEqVxKk 0xA#4 0xFE#8) := by decide
theorem test_decode_skipNeVxKk : decode 0b0100101000000001#16 = .ok (.skipNeVxKk 0xA#4 0x01#8) := by decide
theorem test_decode_skipEqVxVy : decode 0b0101101010110000#16 = .ok (.skipEqVxVy 0xA#4 0xB#4) := by decide
theorem test_decode_setVxKk : decode 0b0110111110000000#16 = .ok (.setVxKk 0xF#4 0x80#8) := by decide
theorem test_decode_addVxKk : decode 0b0111111100000001#16 = .ok (.addVxKk 0xF#4 0x01#8) := by decide
theorem test_decode_setVxVy : decode 0b1000101010110000#16 = .ok (.setVxVy 0xA#4 0xB#4) := by decide
theorem test_decode_orVxVy : decode 0b1000101010110001#16 = .ok (.orVxVy 0xA#4 0xB#4) := by decide
theorem test_decode_andVxVy : decode 0b1000101010110010#16 = .ok (.andVxVy 0xA#4 0xB#4) := by decide
theorem test_decode_xorVxVy : decode 0b1000101010110011#16 = .ok (.xorVxVy 0xA#4 0xB#4) := by decide
theorem test_decode_addcVxVy : decode 0b1000101010110100#16 = .ok (.addcVxVy 0xA#4 0xB#4) := by decide
theorem test_decode_subVxVy : decode 0b1000101010110101#16 = .ok (.subVxVy 0xA#4 0xB#4) := by decide
theorem test_decode_shrVxVy : decode 0b1000101010110110#16 = .ok (.shrVxVy 0xA#4 0xB#4) := by decide
theorem test_decode_subrVxVy : decode 0b1000101010110111#16 = .ok (.subrVxVy 0xA#4 0xB#4) := by decide
theorem test_decode_shlVxVy : decode 0b1000101010111110#16 = .ok (.shlVxVy 0xA#4 0xB#4) := by decide
theorem test_decode_skipNeVxVy : decode 0b1001101010110000#16 = .ok (.skipNeVxVy 0xA#4 0xB#4) := by decide
theorem test_decode_indexSet : decode 0b1010111111111110#16 = .ok (.indexSet 0xFFE#12) := by decide
theorem test_decode_jumpV0 : decode 0b1011111111111110#16 = .ok (.jumpV0 0xFFE#12) := by decide
theorem test_decode_randVxKk : decode 0b1100001011111110#16 = .ok (.randVxKk 0x2#4 0xFE#8) := by decide
theorem test_decode_graphicsDraw : decode 0b1101000100100011#16 = .ok (.graphicsDraw 0x1#4 0x2#4 0x3#4) := by decide
theorem test_decode_timerGet : decode 0b1111101000000111#16 = .ok (.timerGet 0xA#4) := by decide
theorem test_decode_keyAwait : decode 0b1111101000001010#16 = .ok (.keyAwait 0xA#4) := by decide
theorem test_decode_setDelay : decode 0b1111101000010101#16 = .ok (.setDelay 0xA#4) := by decide
theorem test_decode_setSound : decode 0b1111101000011000#16 = .ok (.setSound 0xA#4) := by decide
theorem test_decode_indexAdd : decode 0b1111101000011110#16 = .ok (.indexAdd 0xA#4) := by decide
theorem test_decode_fontVx : decode 0b1111111100101001#16 = .ok (.fontVx 0xF#4) := by decide
theorem test_decode_refuses_5xy1 : decode 0b0101101010110001#16 = .error (.invalidOpCode 0x5AB1#16) := by decide
theorem test_decode_refuses_8xyF : decode 0b1000101010111111#16 = .error (.invalidOpCode 0x8ABF#16) := by decide
theorem test_decode_refuses_9xy5 : decode 0b1001101010110101#16 = .error (.invalidOpCode 0x9AB5#16) := by decide
theorem test_decode_refuses_E09E : decode 0b1110000010011110#16 = .error (.invalidOpCode 0xE09E#16) := by decide
theorem test_decode_refuses_F033 : decode 0b1111000000110011#16 = .error (.invalidOpCode 0xF033#16) := by decide
theorem test_encode_graphicsDraw : encode (.graphicsDraw 0x1#4 0x2#4 0x3#4) = 0b1101000100100011#16 := by decide
theorem test_encode_keyAwait : encode (.keyAwait 0xA#4) = 0b1111101000001010#16 := by decide
theorem test_decodeTableWord_jump : decodeTableWord 16 0x1ABC = some (.jump 0xABC#12) := by decide
theorem test_decodeTableWord_invalid : decodeTableWord 16 0xE0A1 = none := by decide

/-! ### The tick (95_test_vectors.md 2.2) -/

/-- T1. -/
theorem test_T1_tick :
    (after 0x602A#16 ((blank.setDt 3).setSt 1)).map (fun t => (t.reg 0x0#4, t.pc, t.dt, t.st)) =
      some (0x2A#8, 0x202#12, 0x02#8, 0x00#8) := by decide
/-- T2: the fault, and the state it leaves. -/
theorem test_T2_invalid :
    (stateAfterTick (some 0x5#4) (wordAt 0x200#12 0xE09E#16 (blank.setDt 3))).map (fun t => (t.pc, t.dt, t.key)) =
      some (0x200#12, 0x03#8, some 0x5#4) := by decide
/-- T5: the advance wraps at the top of memory. -/
theorem test_T5_pc_wraps : pcOf (stateAfterTick none (wordAt 0xFFE#12 0x6A01#16 blank)) = some 0x000#12 := by decide
/-- T6: the fetch wraps: `0x6B` at `0xFFF` and `0x02` at `0x000`. -/
theorem test_T6_fetch_wraps :
    (hostLoad 0x000#12 [0x02#8] (hostLoad 0xFFF#12 [0x6B#8] { blank with pc := 0xFFF#12 })).fetchWord = 0x6B02#16 := by
  decide
/-- T7: an odd `pc`. -/
theorem test_T7_odd_pc :
    (stateAfterTick none (wordAt 0x201#12 0x7C05#16 (blank.setReg 0xC#4 0xFE#8))).map
      (fun t => (t.reg 0xC#4, t.pc)) = some (0x03#8, 0x203#12) := by decide
/-- T8. -/
theorem test_T8_exit :
    tickOutcome none (wordAt 0x300#12 0x00FD#16 (blank.setDt 5)) = some .exit ∧
    (stateAfterTick none (wordAt 0x300#12 0x00FD#16 (blank.setDt 5))).map (fun t => (t.pc, t.dt)) =
      some (0x302#12, 0x04#8) := by decide

/-! ### Flow (2.3) -/

/-- F1. -/
theorem test_F1_jump : pcOf (after 0x1234#16 blank) = some 0x234#12 := by decide
/-- F3b: the offset jump wraps. -/
theorem test_F3b_jumpV0 : pcOf (after 0xBFFF#16 (blank.setReg 0x0#4 0x02#8)) = some 0x001#12 := by decide
/-- F4. -/
theorem test_F4_call :
    (stateAfterTick none (wordAt 0x204#12 0x2210#16 blank)).map (fun t => (t.stack[0], t.sp, t.pc)) =
      some (0x206#12, 1, 0x210#12) := by decide
/-- F6. -/
theorem test_F6_overflow : tickOutcome none (wordAt 0x300#12 0x2400#16 { blank with sp := 16 }) = some .stackOverflow := by
  decide
/-- F7: the slot keeps its value. -/
theorem test_F7_return :
    (stateAfterTick none (wordAt 0x214#12 0x00EE#16
      { blank with sp := 1, stack := blank.stack.set 0 0x206#12 })).map (fun t => (t.stack[0], t.sp, t.pc)) =
      some (0x206#12, 0, 0x206#12) := by decide
/-- F8. -/
theorem test_F8_underflow : tickOutcome none (wordAt 0x214#12 0x00EE#16 blank) = some .stackUnderflow := by decide
/-- F9 and F10. -/
theorem test_F9_skipEqVxKk : pcOf (after 0x3100#16 blank) = some 0x204#12 := by decide
theorem test_F10_skipEqVxKk : pcOf (after 0x3100#16 (blank.setReg 0x1#4 0x01#8)) = some 0x202#12 := by decide
/-- F11 and F12. -/
theorem test_F11_skipNeVxKk : pcOf (after 0x4206#16 (blank.setReg 0x2#4 0x05#8)) = some 0x204#12 := by decide
theorem test_F12_skipNeVxKk : pcOf (after 0x4205#16 (blank.setReg 0x2#4 0x05#8)) = some 0x202#12 := by decide
/-- F13 and F14. -/
theorem test_F13_skipEqVxVy : pcOf (afterRegs 0x0#4 0x33#8 0x1#4 0x33#8 0x5010#16) = some 0x204#12 := by decide
theorem test_F14_skipEqVxVy : pcOf (afterRegs 0x0#4 0x33#8 0x1#4 0x34#8 0x5010#16) = some 0x202#12 := by decide
/-- F16 and F17. -/
theorem test_F16_skipNeVxVy : pcOf (afterRegs 0x0#4 0x01#8 0x1#4 0x02#8 0x9010#16) = some 0x204#12 := by decide
theorem test_F17_skipNeVxVy : pcOf (after 0x9770#16 (blank.setReg 0x7#4 0x99#8)) = some 0x202#12 := by decide
/-- F18: the skip wraps. -/
theorem test_F18_skip_wraps : pcOf (stateAfterTick none (wordAt 0xFFC#12 0x3000#16 blank)) = some 0x000#12 := by decide

/-! ### Arithmetic (2.4) -/

/-- A2. -/
theorem test_A2_setVxKk : regOf 0xF#4 (after 0x6F80#16 blank) = some 0x80#8 := by decide
/-- A3 and A4: no carry flag. -/
theorem test_A3_addVxKk : regOf 0x1#4 (after 0x71FF#16 (blank.setReg 0x1#4 0x05#8)) = some 0x04#8 := by decide
theorem test_A4_addVxKk_no_flag : regOf 0xF#4 (after 0x7101#16 (blank.setReg 0x1#4 0xFF#8)) = some 0x00#8 := by decide
/-- A5. -/
theorem test_A5_setVxVy : regOf 0x0#4 (after 0x8010#16 (blank.setReg 0x1#4 0x7E#8)) = some 0x7E#8 := by decide
/-- A6: the value and the untouched flag. -/
theorem test_A6_orVxVy : regOf 0x0#4 (afterRegs 0x0#4 0xF0#8 0x1#4 0x0F#8 0x8011#16) = some 0xFF#8 := by decide
theorem test_A6_or_keeps_flag : regOf 0xF#4 (afterRegs 0x0#4 0xF0#8 0xF#4 0x01#8 0x8011#16) = some 0x01#8 := by decide
/-- A7. -/
theorem test_A7_andVxVy : regOf 0x0#4 (afterRegs 0x0#4 0xF0#8 0x1#4 0x3C#8 0x8012#16) = some 0x30#8 := by decide
/-- A8 and A9. -/
theorem test_A8_xorVxVy : regOf 0x0#4 (afterRegs 0x0#4 0xF0#8 0x1#4 0x3C#8 0x8013#16) = some 0xCC#8 := by decide
theorem test_A9_xor_same : regOf 0x4#4 (after 0x8443#16 (blank.setReg 0x4#4 0x5A#8)) = some 0x00#8 := by decide

/-- The result and the flag. -/
def resultAndFlag (x : Nibble) (o : Option State) : Option (Byte × Byte) := o.map (fun t => (t.reg x, t.reg 0xF#4))

/-- S4 (R166), and A10 with `x = 15`. -/
theorem test_S4_addc : resultAndFlag 0x0#4 (afterRegs 0x0#4 0xFF#8 0x1#4 0x01#8 0x8014#16) = some (0x00#8, 0x01#8) := by
  decide
theorem test_A10_addc_flag_wins : regOf 0xF#4 (afterRegs 0xF#4 0xFF#8 0x1#4 0x01#8 0x8F14#16) = some 0x01#8 := by decide
/-- S4 (R167), and A13 with `y = 15`. -/
theorem test_S4_sub : resultAndFlag 0x0#4 (afterRegs 0x0#4 0x00#8 0x1#4 0x01#8 0x8015#16) = some (0xFF#8, 0x00#8) := by
  decide
theorem test_A13_sub_old_flag :
    resultAndFlag 0x0#4 (afterRegs 0x0#4 0x05#8 0xF#4 0x09#8 0x80F5#16) = some (0xFC#8, 0x00#8) := by decide
/-- The first two rows of the table of `8xy7`. -/
theorem test_subr_borrow : resultAndFlag 0x0#4 (afterRegs 0x0#4 0x01#8 0x1#4 0x00#8 0x8017#16) = some (0xFF#8, 0x00#8) := by
  decide
theorem test_subr_no_borrow :
    resultAndFlag 0x0#4 (afterRegs 0x0#4 0x01#8 0x1#4 0x03#8 0x8017#16) = some (0x02#8, 0x01#8) := by decide
/-- The first row of `8xy6` under both settings. -/
theorem test_shr_vx : resultAndFlag 0x0#4 (afterRegs 0x0#4 0x05#8 0x1#4 0x80#8 0x8016#16) = some (0x02#8, 0x01#8) := by
  decide
theorem test_shr_vy : resultAndFlag 0x0#4 (afterRegsVy 0x0#4 0x05#8 0x1#4 0x80#8 0x8016#16) = some (0x40#8, 0x00#8) := by
  decide
/-- The second row of `8xyE` under both settings. -/
theorem test_shl_vx : resultAndFlag 0x0#4 (afterRegs 0x0#4 0x40#8 0x1#4 0x80#8 0x801E#16) = some (0x80#8, 0x00#8) := by
  decide
theorem test_shl_vy : resultAndFlag 0x0#4 (afterRegsVy 0x0#4 0x40#8 0x1#4 0x80#8 0x801E#16) = some (0x00#8, 0x01#8) := by
  decide
/-- A20: with the mask `0xFF` the register is the draw, whatever it is. -/
theorem test_A20_rand : regOf 0x0#4 (after 0xC0FF#16 blank) = some (Config.freeDraw 0 &&& 0xFF#8) := rfl
/-- A19: with the mask 0 it is 0. -/
theorem test_A19_rand_masked : regOf 0x0#4 (after 0xC000#16 blank) = some 0x00#8 :=
  (congrArg some (BitVec.and_zero : Config.freeDraw 0 &&& 0x00#8 = 0x00#8) :)
/-- A21, A22 and A23. -/
theorem test_A21_setDelay : (after 0xF015#16 (blank.setReg 0x0#4 0x0A#8)).map State.dt = some 0x0A#8 := by decide
theorem test_A22_setSound : (after 0xF318#16 (blank.setReg 0x3#4 0x02#8)).map State.st = some 0x02#8 := by decide
theorem test_A23_timerGet : regOf 0x2#4 (after 0xF207#16 (blank.setDt 6)) = some 0x05#8 := by decide

/-! ### Graphics (2.5) -/

/-- G1. -/
theorem test_G1_draw : onOf (after 0xD011#16 (sprite [0xFF#8] 0x08#8 0x04#8)) =
    some [264, 265, 266, 267, 268, 269, 270, 271] := by decide +kernel
/-- G4: clipped at the right and bottom edges. -/
theorem test_G4_draw_clips : onOf (after 0xD013#16 (sprite [0x81#8, 0x81#8, 0x81#8] 60#8 30#8)) = some [1980, 2044] := by
  decide +kernel
/-- G13. -/
theorem test_G13_clear : onOf (after 0x00E0#16 { blank with disp := [(264, 0xFF#8)] }) = some [] := by decide

/-! ### Index, font, key, system (2.6, 2.7) -/

/-- X1. -/
theorem test_X1_indexSet : (after 0xA212#16 blank).map State.i = some 0x212#12 := by decide
/-- X3 and X4. -/
theorem test_X3_indexAdd_no_flag :
    (after 0xF21E#16 ((blank.setI 0xFFF#12).setReg 0x2#4 0x02#8)).map (fun t => (t.i, t.reg 0xF#4)) =
      some (0x001#12, 0x00#8) := by decide
theorem test_X4_indexAdd : (after 0xF01E#16 ((blank.setI 0xF80#12).setReg 0x0#4 0xFF#8)).map State.i = some 0x07F#12 := by
  decide
/-- X6 and X8. -/
theorem test_X6_font : (after 0xFA29#16 (blank.setReg 0xA#4 0x1A#8)).map State.i = some 0x082#12 := by decide
theorem test_X8_font : (after 0xF029#16 (blank.setReg 0x0#4 0xFF#8)).map State.i = some 0x09B#12 := by decide
/-- K1 and K3. -/
theorem test_K1_key_wait : pcOf (after 0xF30A#16 blank) = some 0x200#12 := by decide
theorem test_K3_key_taken :
    (stateAfterTick (some 0x7#4) (wordAt 0x200#12 0xF30A#16 blank)).map (fun t => (t.reg 0x3#4, t.pc, t.key)) =
      some (0x07#8, 0x202#12, some 0x7#4) := by decide
/-- K7 and K8. -/
theorem test_K7_sys : tick none blank = .next (blank.setPc 0x002#12) := rfl
theorem test_K8_sys_fault :
    tickOutcome none (State.resetWith { vectorConfig false with sysCallFaults := true }) = some (.sysCallFault 0x000#12) := by
  decide

/-! ### Host operations (2.8) and the text layer -/

/-- H1: font bytes at both ends of the range and the bytes beside it. -/
theorem test_H1_font_bytes :
    [blank.memRead 0x04F#12, blank.memRead 0x050#12, blank.memRead 0x09F#12, blank.memRead 0x0A0#12] =
      [0x00#8, 0xF0#8, 0x80#8, 0x00#8] := by decide
/-- H2: a load past the top is cut off and does not wrap. -/
theorem test_H2_load :
    (hostLoad 0xFFE#12 [0x11#8, 0x22#8, 0x33#8, 0x44#8] blank).mem = [(0xFFE, 0x11#8), (0xFFF, 0x22#8)] := by decide
/-- H3. -/
theorem test_H3_loadRom : hostLoadRom 0x200#12 [0xAA#8] blank =
    .next { blank with mem := [(0x200, 0xAA#8)], rom := some ⟨0x200#12, 1⟩ } := rfl
/-- H4. -/
theorem test_H4_double_load : hostLoadRom 0x300#12 [0x01#8] { blank with rom := some ⟨0x200#12, 3⟩ } =
    .fault .doubleLoad := rfl
/-- H5: the bytes beside the range stay. -/
theorem test_H5_unload : hostUnloadRom
    { blank with rom := some ⟨0x200#12, 1⟩, mem := [(0x1FF, 0x77#8), (0x200, 0xAA#8), (0x201, 0x77#8)] } =
      .next { blank with mem := [(0x1FF, 0x77#8), (0x201, 0x77#8)] } := rfl
/-- H6 and H7. -/
theorem test_H6_inject : hostInject 0x1200#16 blank = .next { blank with pc := 0x200#12 } := rfl
theorem test_H7_inject_invalid : hostInject 0xE000#16 blank = .fault (.invalidOpCode 0xE000#16) := rfl
/-- R260: Reset after a fault; the fault stays without one. -/
theorem test_reset_follows_fault : hostRun [.inject 0x00EE#16, .tick none, .reset, .inject 0x1200#16] blank =
    .next { blank with pc := 0x200#12 } := rfl
theorem test_fault_stays : hostRun [.inject 0x00EE#16, .tick none] blank = .fault .stackUnderflow := rfl
/-- A key above 15 (R235). -/
theorem test_key_16_is_refused : keyOfNat 16 = .error ⟨4, 16⟩ := by decide
/-- S3: the raw literal `0x8014` is `addc V0 V1`. -/
theorem test_S3_raw_literal : parseLine ['0', 'x', '8', '0', '1', '4'] = .ok (.addcVxVy 0x0#4 0x1#4) := by decide
/-- R102: the second spelling of Draw. -/
theorem test_draw_alone : parse [.word .draw, .reg 0x1#4, .reg 0x2#4, .hex 1 3] = .ok (.graphicsDraw 0x1#4 0x2#4 0x3#4) := by
  decide
/-- R103: a literal source of `sub`, a Branch with two immediates or with a timer, an immediate for a timer. -/
theorem test_sub_literal_has_no_opcode : parse [.word .sub, .reg 0x1#4, .hex 2 3] = .error .noOpcode := by decide
theorem test_skip_literals_has_no_opcode : parse [.word .skip, .word .eq, .hex 2 1, .hex 2 2] = .error .noOpcode := by decide
theorem test_skip_timer_has_no_opcode : parse [.word .skip, .word .ne, .reg 0x0#4, .word .delay] = .error .noOpcode := by
  decide
theorem test_set_delay_literal_has_no_opcode : parse [.word .set, .word .delay, .hex 2 5] = .error .noOpcode := by decide
/-- R101: a missing operand and an extra token are `SyntaxError`; R100: a literal too wide is `IntSizeError`. -/
theorem test_or_delay_misses_a_source : parse [.word .or, .word .delay] = .error (.syntaxError .registerOrLiteral none) := by
  decide
theorem test_key_misses_await :
    parse [.word .key, .reg 0x0#4] = .error (.syntaxError .keyOperation (some (.reg 0x0#4))) := by decide
theorem test_graphics_alone : parse [.word .graphics] = .error (.syntaxError .graphicsOperation none) := by decide
theorem test_index_misses_operation :
    parse [.word .index, .hex 3 0x200] = .error (.syntaxError .indexOperation (some (.hex 3 0x200))) := by decide
theorem test_sub_extra_token :
    parse [.word .sub, .reg 0x1#4, .hex 2 3, .reg 0x2#4] = .error (.syntaxError .endOfLine (some (.reg 0x2#4))) := by decide
theorem test_or_wide_literal : parse [.word .or, .reg 0x0#4, .hex 3 0x100] = .error (.intSize ⟨8, 0x100⟩) := by decide

/-! ### The first instruction after reset -/

/-- A placed word is run by the very next step: a jump, whatever key comes. -/
theorem test_first_step_runs_placed_word :
    ∃ t, step (State.reset.withFetchWord 16 0x1ABC) = .next t ∧ t.pc = 0xABC#12 := ⟨_, rfl, rfl⟩

/-! ### Witnesses: for every statement with hypotheses, states and operands that meet them, one per clause, at the values
where the clauses meet -/

theorem witness_DecodeOfEncode : (Instr.sys 0xFFF#12).wellFormed = true := by decide
theorem witness_EncodeOfDecode : decode 0xFF29#16 = .ok (.fontVx 0xF#4) := by decide
theorem witness_DecoderPicks_ok : decode 0x00FD#16 = .ok .exit ∧ selectedRow 0x00FD#16 = some 3 := by decide
theorem witness_DecoderPicks_error : decode 0x800F#16 = .error (.invalidOpCode 0x800F#16) := by decide
theorem witness_InvalidWords_family5 : invalidWord 0x5001#16 ∧ ¬ invalidWord 0x5000#16 := by unfold invalidWord; decide
theorem witness_InvalidWords_family8 : invalidWord 0x8008#16 ∧ ¬ invalidWord 0x8007#16 := by unfold invalidWord; decide
theorem witness_InvalidWords_8xyE : invalidWord 0x800D#16 ∧ ¬ invalidWord 0x800E#16 ∧ invalidWord 0x800F#16 := by
  unfold invalidWord; decide
theorem witness_InvalidWords_family9 : invalidWord 0x900F#16 ∧ ¬ invalidWord 0x9FF0#16 := by unfold invalidWord; decide
theorem witness_InvalidWords_familyE : invalidWord 0xE000#16 ∧ invalidWord 0xEFFF#16 ∧ ¬ invalidWord 0xDFFF#16 := by
  unfold invalidWord; decide
theorem witness_InvalidWords_familyF : invalidWord 0xF006#16 ∧ ¬ invalidWord 0xF007#16 ∧ ¬ invalidWord 0xF029#16 ∧
    invalidWord 0xF02A#16 := by unfold invalidWord; decide
theorem witness_RawLiteralErrors_size : 65536 ≤ 0x10000 := by decide

/-! #### The tick -/

theorem witness_StepRuns_ok : (wordAt 0xFFF#12 0x6B02#16 blank).exited = false ∧
    decode ((wordAt 0xFFF#12 0x6B02#16 blank).memRead 0xFFF#12 ++ (wordAt 0xFFF#12 0x6B02#16 blank).memRead 0x000#12) =
      .ok (.setVxKk 0xB#4 0x02#8) := by decide
theorem witness_StepRuns_error : blank.exited = false ∧
    decode ((wordAt 0x200#12 0xE09E#16 blank).memRead 0x200#12 ++ (wordAt 0x200#12 0xE09E#16 blank).memRead 0x201#12) =
      .error (.invalidOpCode 0xE09E#16) := by decide
theorem witness_StepRuns_key : { blank with keyInputs := [some 0x7#4] }.keyInputs = some 0x7#4 :: [] ∧
    blank.keyInputs = [] := by decide
theorem witness_InvalidOpcode : (wordAt 0x200#12 0xE09E#16 blank).exited = false ∧
    invalidWord (wordAt 0x200#12 0xE09E#16 blank).fetchWord := by
  have e : (wordAt 0x200#12 0xE09E#16 blank).fetchWord = 0xE09E#16 := by decide
  rw [e]; unfold invalidWord; decide
/-- Also for the tick clauses of NoInstructionWritesMemory and RomRecordReachesNoTick. -/
theorem witness_Timers_other : decode (wordAt 0x200#12 0x602A#16 blank).fetchWord = .ok (.setVxKk 0x0#4 0x2A#8) ∧
    writesDelay (.setVxKk 0x0#4 0x2A#8) = false ∧ writesSound (.setVxKk 0x0#4 0x2A#8) = false ∧
    ∃ t, tick none (wordAt 0x200#12 0x602A#16 blank) = .next t := ⟨by decide, rfl, rfl, _, rfl⟩
theorem witness_Timers_delay : decode (wordAt 0x200#12 0xF015#16 blank).fetchWord = .ok (.setDelay 0x0#4) ∧
    ∃ t, tick none (wordAt 0x200#12 0xF015#16 blank) = .next t := ⟨by decide, _, rfl⟩
theorem witness_Timers_sound : decode (wordAt 0x200#12 0xF018#16 blank).fetchWord = .ok (.setSound 0x0#4) ∧
    ∃ t, tick none (wordAt 0x200#12 0xF018#16 blank) = .next t := ⟨by decide, _, rfl⟩
theorem witness_PcAfterTick_jump : decode (wordAt 0x200#12 0x1ABC#16 blank).fetchWord = .ok (.jump 0xABC#12) ∧
    ∃ t, tick none (wordAt 0x200#12 0x1ABC#16 blank) = .next t := ⟨by decide, _, rfl⟩
theorem witness_PcAfterTick_ret : decode (wordAt 0x200#12 0x00EE#16 { blank with sp := 16 }).fetchWord = .ok .ret ∧
    ∃ t, tick none (wordAt 0x200#12 0x00EE#16 { blank with sp := 16 }) = .next t := ⟨by decide, _, rfl⟩
theorem witness_Outcomes : blank.exited = false ∧ decode blank.fetchWord = .ok (.sys 0x000#12) := by decide
theorem witness_Waiting : (wordAt 0x000#12 0xF00A#16 blank).exited = false ∧
    decode (wordAt 0x000#12 0xF00A#16 blank).fetchWord = .ok (.keyAwait 0x0#4) := by decide
/-- A tick that faults, with operations after it. -/
theorem witness_OnlyReset_fault : hostStep (.inject 0x00EE#16) blank = .fault .stackUnderflow ∧
    HostOp.reset ∉ [HostOp.unloadRom] := ⟨rfl, by decide⟩
theorem witness_OnlyReset_refused : hostStep (.tick none) blank.endRun = .refused .runEnded := rfl
theorem witness_OnlyReset : blank.endRun.exited = true ∧ HostOp.unloadRom ≠ .reset := by decide

/-! #### Instructions -/

theorem witness_Call_room : { blank with sp := 15 }.sp.val < 16 := by decide
theorem witness_Call_full : { blank with sp := 16 }.sp.val = 16 := by decide
theorem witness_Return_entry : 0 < { blank with sp := 1 }.sp.val := by decide
theorem witness_Return_empty : blank.sp.val = 0 := by decide
/-- The low nibble beside the valid one. -/
theorem witness_Branch_invalid_nibble : (0x1#4 : Nibble) ≠ 0x0#4 := by decide
theorem witness_Font_legal : configLegal blank.config = true := by decide
theorem witness_flag_destination : (0xE#4 : Nibble) ≠ 0xF#4 := by decide
/-- The last pixel, under bit 7 of the row at column 63 and row 31, off before. -/
theorem witness_Draw_off : drawCovers (sprite [0x80#8] 63#8 31#8) 0x0#4 0x1#4 0x1#4 63 31 ∧
    (sprite [0x80#8] 63#8 31#8).pixel 2047 = 0x00#8 := by unfold drawCovers; decide +kernel
/-- The same pixel, on before: also a collision. -/
theorem witness_Draw_on : drawCovers { sprite [0x80#8] 63#8 31#8 with disp := [(2047, 0xFF#8)] } 0x0#4 0x1#4 0x1#4 63 31 ∧
    { sprite [0x80#8] 63#8 31#8 with disp := [(2047, 0xFF#8)] }.pixel 2047 ≠ 0x00#8 := by
  unfold drawCovers; decide +kernel
/-- A sprite bit of 0 covers nothing. -/
theorem witness_Draw_not_covered : ¬ drawCovers (sprite [0x7F#8] 63#8 31#8) 0x0#4 0x1#4 0x1#4 63 31 := by
  unfold drawCovers; decide +kernel
theorem witness_Draw_collides : blank.config.drawWritesVf = true ∧
    drawCollides { sprite [0x80#8] 63#8 31#8 with disp := [(2047, 0xFF#8)] } 0x0#4 0x1#4 0x1#4 :=
  ⟨rfl, 63, 31, by decide, by decide, witness_Draw_on⟩
/-- No row, no collision. -/
theorem witness_Draw_no_collision : ¬ drawCollides (sprite [] 63#8 31#8) 0x0#4 0x1#4 0x0#4 := by
  rintro ⟨c, r, -, -, ⟨-, -, h, h', -⟩, -⟩
  have e : (0x0#4 : Nibble).toNat = 0 := rfl
  omega
theorem witness_Draw_no_flag : { vectorConfig false with drawWritesVf := false }.drawWritesVf = false := by decide
theorem witness_DrawTwice : pixelsOnOff (sprite [0x80#8] 63#8 31#8).disp = true ∧
    (sprite [0x80#8] 63#8 31#8).config.drawWritesVf = true ∧ ((0x0#4 : Nibble) ≠ 0xF#4 ∧ (0x1#4 : Nibble) ≠ 0xF#4) ∧
    drawTurnsOn (sprite [0x80#8] 63#8 31#8) 0x0#4 0x1#4 0x1#4 :=
  ⟨by decide, by decide, by decide, 63, 31, by decide, by decide, witness_Draw_off⟩
theorem witness_DrawTwice_turns_none_on : ¬ drawTurnsOn (sprite [] 63#8 31#8) 0x0#4 0x1#4 0x0#4 := by
  rintro ⟨c, r, -, -, ⟨-, -, h, h', -⟩, -⟩
  have e : (0x0#4 : Nibble).toNat = 0 := rfl
  omega
theorem witness_AwaitKey : { blank with key := some 0xF#4 }.key = some 0xF#4 ∧ blank.key = none := by decide
theorem witness_Exit : (wordAt 0xFFE#12 0x00FD#16 blank).exited = false ∧
    (wordAt 0xFFE#12 0x00FD#16 blank).fetchWord = 0x00FD#16 := by decide
theorem witness_SysCall_words : (0x0FC#12 : Addr) ∉ [0x0E0#12, 0x0EE#12, 0x0FD#12] := by decide
theorem witness_SysCall_settings : blank.config.sysCallFaults = false ∧
    { vectorConfig false with sysCallFaults := true }.sysCallFaults = true := by decide

/-! #### The whole machine -/

theorem witness_exec_next : ∃ t, exec (.indexSet 0xFFF#12) blank = .next t := ⟨_, rfl⟩
theorem witness_step_next : ∃ t, step (wordAt 0x200#12 0xA123#16 blank) = .next t := ⟨_, rfl⟩
theorem witness_Matrix_registers : (∃ t, exec (.setDelay 0x0#4) blank = .next t) ∧
    destination (.setDelay 0x0#4) = none ∧ writesFlag (.setDelay 0x0#4) blank = false := ⟨⟨_, rfl⟩, by decide⟩
theorem witness_Matrix : (∃ t, exec (.setVxKk 0x0#4 0x01#8) blank = .next t) ∧ writesPc (.setVxKk 0x0#4 0x01#8) = false ∧ writesIndex (.setVxKk 0x0#4 0x01#8) = false ∧
    writesDelay (.setVxKk 0x0#4 0x01#8) = false ∧ writesSound (.setVxKk 0x0#4 0x01#8) = false ∧
    writesStack (.setVxKk 0x0#4 0x01#8) = false ∧ writesDisplay (.setVxKk 0x0#4 0x01#8) = false :=
  ⟨⟨_, rfl⟩, by decide⟩
theorem witness_OnlyTheDestination : (∃ t, exec (.addcVxVy 0x1#4 0x2#4) blank = .next t) ∧
    (∃ t, exec (.addVxKk 0x1#4 0x02#8) blank = .next t) ∧ destination (.addcVxVy 0x1#4 0x2#4) ≠ some 0xE#4 ∧
    destination (.addVxKk 0x1#4 0x02#8) ≠ some 0xF#4 ∧ writesFlag (.addVxKk 0x1#4 0x02#8) blank = false :=
  ⟨⟨_, rfl⟩, ⟨_, rfl⟩, by decide⟩
theorem witness_readsParameter : readsParameter (.addVxKk 0x1#4 0x02#8) = false := by decide
theorem witness_hostStep_next : ∃ t, hostStep (.load 0xFFF#12 [0x01#8, 0x02#8]) blank = .next t := ⟨_, rfl⟩
theorem witness_readsKey : readsKey (.timerGet 0x1#4) = false := by decide
theorem witness_StepKeepsInvariant : blank.inv = true ∧ ∃ t, step blank = .next t := ⟨by decide, _, rfl⟩
/-- A state with a byte of memory, a pixel and a ROM record that meets the invariant. -/
theorem witness_Invariant_loaded :
    { blank with mem := [(0x200, 0x60#8)], disp := [(2047, 0xFF#8)], rom := some ⟨0x200#12, 3584⟩ }.inv = true := by decide
theorem witness_HostOperationsKeepInvariant : blank.inv = true ∧
    ∃ t, hostStep (.loadRom 0xFFF#12 [0x01#8, 0x02#8]) blank = .next t := ⟨by decide, _, rfl⟩
theorem witness_configLegal : configLegal { vectorConfig true with fontBase := 0x1B0#12 } = true ∧
    configLegal { vectorConfig true with fontBase := 0x1B1#12 } = false := by decide
theorem witness_reachable : blank.reachable := ⟨vectorConfig false, [], by decide, rfl⟩

/-! #### Memory and the host operations -/

theorem witness_Canonical : Memory.wf blank.config [(0x050, 0x00#8), (0x200, 0x60#8)] = true ∧
    Memory.wf blank.config [(0x050, 0xF0#8)] = false := by decide
/-- Two states that differ in a register and read alike. -/
theorem witness_Canonical_all : (blank.setReg 0x0#4 0x01#8).config = blank.config ∧
    Memory.wf blank.config blank.mem = true ∧ Memory.wf blank.config (blank.setReg 0x0#4 0x01#8).mem = true ∧
    ∀ a, (blank.setReg 0x0#4 0x01#8).memRead a = blank.memRead a := ⟨rfl, by decide, by decide, fun _ => rfl⟩
theorem witness_Load_top : 0 < [0x11#8, 0x22#8].length ∧ (0xFFF#12 : Addr).toNat = (0xFFF#12 : Addr).toNat + 0 := by decide
theorem witness_Load_beside : (0x1FF#12 : Addr).toNat < (0x200#12 : Addr).toNat ∧
    (0x200#12 : Addr).toNat + [0x11#8, 0x22#8].length ≤ (0x202#12 : Addr).toNat := by decide
theorem witness_Rom_record : { blank with rom := some ⟨0x200#12, 3⟩ }.rom = some ⟨0x200#12, 3⟩ ∧ blank.rom = none := by
  decide
theorem witness_Rom_range : (0x200#12 : Addr).toNat ≤ (0x202#12 : Addr).toNat ∧
    (0x202#12 : Addr).toNat < (0x200#12 : Addr).toNat + 3 ∧
    ((0x203#12 : Addr).toNat < (0x200#12 : Addr).toNat ∨ (0x200#12 : Addr).toNat + 3 ≤ (0x203#12 : Addr).toNat) := by decide
theorem witness_Fetch : { blank with pc := 0xFFE#12 }.pc ≠ 0xFFF#12 := by decide
theorem witness_Fetch_top : { blank with pc := 0xFFF#12 }.pc = 0xFFF#12 := by decide
theorem witness_Boot : (0xFFE#12 : Addr).toNat + [0x12#8, 0x00#8].length ≤ 0x1000 ∧
    (0xFFD#12 : Addr).toNat < (0xFFE#12 : Addr).toNat := by decide
theorem witness_Placed : (Instr.graphicsDraw 0xF#4 0xF#4 0xF#4).wellFormed = true := by decide

end Sys2Proof.Tests
end

section
/-! The configuration (spec/10_state.md R31, obligation O43): what every execute step and every host operation leaves as it
was, and the execute step under another configuration. -/

namespace Sys2Proof.Machine

variable {s t : State}

/-! ### What an execute step leaves as it was -/

/-- No execute step touches memory, the key, the ROM record, the configuration or the inputs to come
(spec/10_state.md R29, R30, R31, R36). -/
theorem exec_frame {i : Instr} (h : exec i s = .next t) :
    t = { t with mem := s.mem, key := s.key, rom := s.rom, config := s.config, keyInputs := s.keyInputs,
                 ticks := s.ticks } := by
  cases i with
  | ret =>
    obtain ⟨_, _, _, e⟩ | ⟨_, e⟩ := exec_ret_cases s
    · rw [e] at h; cases h; rfl
    · rw [e] at h; cases h
  | call nnn =>
    obtain ⟨_, _, e⟩ | ⟨_, e⟩ := exec_call_cases s nnn
    · rw [e] at h; cases h; rfl
    · rw [e] at h; cases h
  | sys nnn =>
    rw [exec_sys] at h
    split at h
    · cases h
    · cases h; rfl
  | graphicsDraw x y n =>
    rw [exec_graphicsDraw] at h
    cases h
    split
    · rfl
    · rfl
  | keyAwait x =>
    cases h
    obtain ⟨_, _, e⟩ | ⟨_, e⟩ := s.awaitKey_cases x
    · rw [e]; rfl
    · rw [e]; rfl
  | skipEqVxKk | skipNeVxKk | skipEqVxVy | skipNeVxVy =>
    cases h
    rw [State.skipIf_eq]
    rfl
  | _ => cases h; rfl

theorem exec_config {i : Instr} (h : exec i s = .next t) : t.config = s.config := by
  rw [exec_frame h]

/-! ### Ticks and host operations that give a next state -/

@[simp] theorem State.beforeExecute_config (s : State) (keyIn : Option Nibble) :
    (s.beforeExecute keyIn).config = s.config := rfl

/-- A tick with a next state executed the instruction it fetched (spec/40_tick_cycle.md R127). -/
theorem tick_next {keyIn : Option Nibble} (h : tick keyIn s = .next t) :
    ∃ i, decode s.fetchWord = .ok i ∧ exec i (s.beforeExecute keyIn) = .next t := by
  obtain ⟨_, e⟩ | ⟨_, _, e⟩ | ⟨_, i, hd, e⟩ := tick_cases s keyIn
  · rw [e] at h; cases h
  · rw [e] at h; cases h
  · exact ⟨i, hd, e ▸ h⟩

theorem tick_config {keyIn : Option Nibble} (h : tick keyIn s = .next t) : t.config = s.config := by
  obtain ⟨_, _, he⟩ := tick_next h
  simpa using exec_config he

theorem step_config (h : step s = .next t) : t.config = s.config :=
  tick_config (s := s.takeKey) h

@[simp] theorem hostLoad_config (offset : Addr) (bytes : List Byte) (s : State) :
    (hostLoad offset bytes s).config = s.config := by
  rw [hostLoad, s.loadBytes_eq]

theorem hostLoadRom_next {offset : Addr} {bytes : List Byte} (h : hostLoadRom offset bytes s = .next t) :
    s.rom = none ∧
      t = (hostLoad offset bytes s).setRom (some ⟨offset, min bytes.length (4096 - offset.toNat)⟩) := by
  unfold hostLoadRom at h
  split at h
  · cases h
  · cases h; exact ⟨‹_›, rfl⟩

theorem hostUnloadRom_next (h : hostUnloadRom s = .next t) :
    ∃ r, s.rom = some r ∧ t = (hostLoad r.start (List.replicate r.len 0x00#8) s).setRom none := by
  unfold hostUnloadRom at h
  split at h
  · cases h
  · cases h; exact ⟨_, ‹_›, rfl⟩

theorem hostInject_next {op : OpWord} (h : hostInject op s = .next t) :
    ∃ i, decode op = .ok i ∧ exec i s = .next t := by
  unfold hostInject at h
  split at h
  · cases h
  · exact ⟨_, ‹_›, h⟩

theorem hostStep_next {op : HostOp} (h : hostStep op s = .next t) : applyHostOp op s = .next t := by
  unfold hostStep at h
  split at h
  · cases h
  · exact h

theorem hostStep_config {op : HostOp} (h : hostStep op s = .next t) : t.config = s.config := by
  replace h := hostStep_next h
  cases op with
  | tick keyIn => exact tick_config h
  | reset => cases h; rfl
  | load offset bytes => cases h; exact hostLoad_config offset bytes s
  | loadRom offset bytes =>
    obtain ⟨_, rfl⟩ := hostLoadRom_next h
    simp
  | unloadRom =>
    obtain ⟨_, _, rfl⟩ := hostUnloadRom_next h
    simp
  | inject op =>
    obtain ⟨_, _, he⟩ := hostInject_next h
    exact exec_config he

/-! ### The execute step under another configuration -/

/-- AwaitKey reads the key and no parameter. -/
theorem State.awaitKey_withConfig (s : State) (c : Config) (x : Nibble) :
    State.awaitKey { s with config := c } x = { s.awaitKey x with config := c } := by
  obtain ⟨_, _, _, _, _, _, _, _, _, key, _, _, _, _, _, _⟩ := s
  cases key with
  | none => rfl
  | some k => rfl

/-- An instruction that reads no parameter does the same under any other configuration (R31). -/
theorem exec_withConfig {i : Instr} (hi : readsParameter i = false) (c : Config) (s : State) :
    exec i { s with config := c } = mapNext (fun t => { t with config := c }) (exec i s) := by
  cases i with
  | shrVxVy | shlVxVy | graphicsDraw | fontVx | sys => cases hi
  | ret =>
    obtain ⟨entry, _, _, e⟩ | ⟨empty, e⟩ := exec_ret_cases s <;>
      obtain ⟨entry', _, _, e'⟩ | ⟨empty', e'⟩ := exec_ret_cases { s with config := c }
    · rw [e, e']; rfl
    · exact absurd empty' (Nat.ne_of_gt entry)
    · exact absurd empty (Nat.ne_of_gt entry')
    · rw [e, e']; rfl
  | call nnn =>
    obtain ⟨room, _, e⟩ | ⟨full, e⟩ := exec_call_cases s nnn <;>
      obtain ⟨room', _, e'⟩ | ⟨full', e'⟩ := exec_call_cases { s with config := c } nnn
    · rw [e, e']; rfl
    · exact absurd full' (Nat.ne_of_lt room)
    · exact absurd full (Nat.ne_of_lt room')
    · rw [e, e']; rfl
  | keyAwait x =>
    rw [exec_keyAwait, exec_keyAwait, State.awaitKey_withConfig]
    rfl
  | skipEqVxKk | skipNeVxKk | skipEqVxVy | skipNeVxVy =>
    simp only [exec_skipEqVxKk, exec_skipNeVxKk, exec_skipEqVxVy, exec_skipNeVxVy, State.skipIf_eq]
    rfl
  | _ => rfl

/-- Settles O43: a tick and an injected word end in an execute step, whose frame holds the configuration, and the other
host operations set `mem`, `rom` or the reset values alone; the read side is a case split over the instructions. -/
theorem configurationIsConstantAndReadByFew : Obligations.ConfigurationIsConstantAndReadByFew :=
  ⟨fun _ _ _ => exec_config, fun _ _ _ => hostStep_config, fun _ _ => step_config,
    fun _ c s hi => exec_withConfig hi c s⟩

end Sys2Proof.Machine
end

section
/-! The decoder against the encoder (spec/30_encoding.md R96, obligation O3): a word is packed again from the fields its
row reads, under the bits that select the row. -/

namespace Sys2Proof

variable {op : OpWord} {i : Instr}

/-! ### A word packed again from the bits that select its row and the other fields -/

theorem packNnn_of_family {f : Nibble} (hf : fieldF op = f) : packNnn f (fieldNnn op) = op :=
  hf ▸ packNnn_fields op

theorem packXkk_of_family {f : Nibble} (hf : fieldF op = f) : packXkk f (fieldX op) (fieldKk op) = op :=
  hf ▸ packXkk_fields op

theorem packXkk_of_familyKk {f : Nibble} {kk : Byte} (hf : fieldF op = f) (hkk : fieldKk op = kk) :
    packXkk f (fieldX op) kk = op :=
  hkk ▸ packXkk_of_family hf

theorem packXyn_of_family {f : Nibble} (hf : fieldF op = f) :
    packXyn f (fieldX op) (fieldY op) (fieldN op) = op :=
  hf ▸ packXyn_fields op

theorem packXyn_of_familyN {f n : Nibble} (hf : fieldF op = f) (hn : fieldN op = n) :
    packXyn f (fieldX op) (fieldY op) n = op :=
  hn ▸ packXyn_of_family hf

/-! ### Encoding what each family decodes -/

/-- The three fixed words are tried before SysCall, so its address is none of theirs (R95, R96). -/
theorem sysTargetFree_fieldNnn (hf : fieldF op = 0x0#4) (clear : op ≠ 0x00E0#16) (ret : op ≠ 0x00EE#16)
    (exit : op ≠ 0x00FD#16) : sysTargetFree (fieldNnn op) = true := by
  have word {nnn : Addr} (e : fieldNnn op = nnn) : packNnn 0x0#4 nnn = op := e ▸ packNnn_of_family hf
  simp only [sysTargetFree, Bool.and_eq_true, bne_iff_ne]
  exact ⟨⟨fun e => clear (word e).symm, fun e => ret (word e).symm⟩, fun e => exit (word e).symm⟩

theorem encode_decodeFamily0 (hf : fieldF op = 0x0#4) :
    encode (decodeFamily0 op) = op ∧ (decodeFamily0 op).wellFormed = true := by
  unfold decodeFamily0
  split_ifs with clear ret exit
  · exact ⟨clear.symm, rfl⟩
  · exact ⟨ret.symm, rfl⟩
  · exact ⟨exit.symm, rfl⟩
  · exact ⟨packNnn_of_family hf, sysTargetFree_fieldNnn hf clear ret exit⟩

theorem encode_of_decodeFamily8 (hf : fieldF op = 0x8#4) (h : decodeFamily8 op = .ok i) :
    encode i = op ∧ i.wellFormed = true := by
  unfold decodeFamily8 at h
  split at h
  case h_10 => cases h
  all_goals
    next hn =>
      cases h
      exact ⟨packXyn_of_familyN hf hn, rfl⟩

theorem encode_of_decodeFamilyF (hf : fieldF op = 0xF#4) (h : decodeFamilyF op = .ok i) :
    encode i = op ∧ i.wellFormed = true := by
  unfold decodeFamilyF at h
  split at h
  case h_7 => cases h
  all_goals
    next hkk =>
      cases h
      exact ⟨packXkk_of_familyKk hf hkk, rfl⟩

/-- Encoding a decoded word gives the word, and the instruction is one the decoder can yield (R96). -/
theorem encode_of_decode (h : decode op = .ok i) : encode i = op ∧ i.wellFormed = true := by
  unfold decode at h
  split at h
  case h_1 hf => cases h; exact encode_decodeFamily0 hf
  case h_2 hf | h_3 hf | h_11 hf | h_12 hf => cases h; exact ⟨packNnn_of_family hf, rfl⟩
  case h_4 hf | h_5 hf | h_7 hf | h_8 hf | h_13 hf => cases h; exact ⟨packXkk_of_family hf, rfl⟩
  case h_6 hf | h_10 hf =>
    split at h
    case isTrue hn => cases h; exact ⟨packXyn_of_familyN hf hn, rfl⟩
    case isFalse => cases h
  case h_9 hf => exact encode_of_decodeFamily8 hf h
  case h_14 hf => cases h; exact ⟨packXyn_of_family hf, rfl⟩
  case h_15 hf => exact encode_of_decodeFamilyF hf h
  case h_16 => cases h

/-- Settles O3: the first clause family by family, the words of the three excluded SysCalls by evaluation. -/
theorem encodeOfDecodeIsIdentity : Obligations.EncodeOfDecodeIsIdentity :=
  ⟨fun _ _ => encode_of_decode, by decide, by decide, by decide⟩

end Sys2Proof
end

section
/-! Text read back (spec/30_encoding.md R102, R104, obligation O7): the rendered line of any instruction, and the raw
hexadecimal form of a word. -/

namespace Sys2Proof.Machine

/-- The rendered line is read back as the instruction, whether or not the decoder yields it (R104). -/
theorem parseLine_renderLine (i : Instr) : parseLine (renderLine i) = .ok i :=
  calc parseLine (renderLine i)
    _ = parse (render i) := parseLine_tokens (render i) (render_isRendered i)
    _ = encodeCommand (readCommand (render i)) := parse_render_eq i
    _ = encodeCommand (.ok (commandOf i)) := by rw [readCommand_render]
    _ = .ok i := by simp only [encodeCommand, instr_commandOf]

/-- The raw form is one token, a literal of four digits, alone on its line (R102). -/
theorem parseLine_renderRaw (op : OpWord) : parseLine (renderRaw op) = parseRaw op.toNat := by
  have rendered : (Token.hex 4 op.toNat).isRendered := ⟨by decide, op.isLt⟩
  exact parseLine_tokens [.hex 4 op.toNat] (by simpa using rendered)

/-- A raw literal of a word that decodes stands for its instruction (R102). -/
theorem parseRaw_of_decode {op : OpWord} {i : Instr} (h : decode op = .ok i) : parseRaw op.toNat = .ok i := by
  rw [parseRaw, fitLiteral_toNat, h]

/-- Settles O7: the rendered line is its tokens, read back in the structured form of R103; the raw form is decoded. -/
theorem textOfInstructionParsesBack : Obligations.TextOfInstructionParsesBack :=
  fun op i h => ⟨parseLine_renderLine i, (parseLine_renderRaw op).trans (parseRaw_of_decode h)⟩

end Sys2Proof.Machine
end

section
/-! The tick by what the fetched word decodes to (spec/40_tick_cycle.md R127, obligation O9). -/

namespace Sys2Proof.Machine

variable {s : State}

/-- The timer step read as a condition on the timer itself (R124). -/
theorem countDown_eq (b : Byte) : countDown b = if b = 0x00#8 then b else b - 1 := by
  unfold countDown
  split
  case isTrue zero => exact zero.symm
  case isFalse => rfl

/-- The fetch joins the byte at `pc`, as the high byte, to the one after it (R122). -/
theorem State.fetchWord_eq (s : State) : s.fetchWord = s.memRead s.pc ++ s.memRead (s.pc + 1) := rfl

theorem tick_of_decode_ok (keyIn : Option Nibble) {i : Instr} (running : s.exited = false)
    (hd : decode s.fetchWord = .ok i) : tick keyIn s = exec i (s.beforeExecute keyIn) := by
  simp [tick, running, hd]

theorem tick_of_decode_error (keyIn : Option Nibble) {op : OpWord} (running : s.exited = false)
    (hd : decode s.fetchWord = .error (.invalidOpCode op)) : tick keyIn s = .fault (.invalidOpCode op) := by
  simp [tick, running, hd, decodeFault, raise]

/-- Settles O9: the tick by the outcome of the decoder, on the fetched word and the state before the execute step written
out field by field. -/
theorem tickFollowsThePseudocode : Obligations.TickFollowsThePseudocode := by
  intro keyIn s running
  rw [← s.fetchWord_eq]
  constructor
  · intro i hd
    rw [tick_of_decode_ok keyIn running hd, s.beforeExecute_eq, countDown_eq, countDown_eq]
  · intro op hd
    exact tick_of_decode_error keyIn running hd

end Sys2Proof.Machine
end

section
/-! Jump, Call and the four Branches (spec/41_flow.md R140, R142, R144 to R147, obligations O18, O20, O23): their words
under the decoder, then their execute step, each by what it leaves of the state. -/

namespace Sys2Proof

/-! ### The words of Jump, Call and the Branches (spec/30_encoding.md R95) -/

theorem decode_jumpWord (nnn : Addr) : decode (packNnn 0x1#4 nnn) = .ok (.jump nnn) := by
  simp [decode]

theorem decode_callWord (nnn : Addr) : decode (packNnn 0x2#4 nnn) = .ok (.call nnn) := by
  simp [decode]

theorem decode_skipEqVxKkWord (x : Nibble) (kk : Byte) : decode (packXkk 0x3#4 x kk) = .ok (.skipEqVxKk x kk) := by
  simp [decode]

theorem decode_skipNeVxKkWord (x : Nibble) (kk : Byte) : decode (packXkk 0x4#4 x kk) = .ok (.skipNeVxKk x kk) := by
  simp [decode]

/-- Family 5 holds one instruction, whose last nibble is 0 (R97). -/
theorem decode_family5 (x y n : Nibble) : decode (packXyn 0x5#4 x y n) =
    if n = 0x0#4 then .ok (.skipEqVxVy x y) else .error (.invalidOpCode (packXyn 0x5#4 x y n)) := by
  simp [decode]

/-- Family 9 holds one instruction, whose last nibble is 0 (R97). -/
theorem decode_family9 (x y n : Nibble) : decode (packXyn 0x9#4 x y n) =
    if n = 0x0#4 then .ok (.skipNeVxVy x y) else .error (.invalidOpCode (packXyn 0x9#4 x y n)) := by
  simp [decode]

namespace Machine

variable (s : State)

/-! ### Jump -/

theorem State.unchangedBut_setPc (a : Addr) : unchangedBut [] [.pc] s (s.setPc a) := by
  simp [unchangedBut]

/-- Settles O18: the decoder's row of family 1, and the frame of a new `pc`. -/
theorem jumpSetsPc : Obligations.JumpSetsPc :=
  fun nnn s => ⟨decode_jumpWord nnn, s.setPc nnn, exec_jump s nnn, s.setPc_pc nnn, s.unchangedBut_setPc nnn⟩

/-! ### Call -/

/-- A Call with a slot left: the return address in that slot, and no other part moved (R142). -/
theorem exec_call_of_room (nnn : Addr) (room : s.sp.val < 16) :
    ∃ t, exec (.call nnn) s = .next t ∧ t.pc = nnn ∧ t.sp.val = s.sp.val + 1 ∧
      t.stack = s.stack.set s.sp.val s.pc room ∧ unchangedBut [] [.pc, .stack] s t := by
  obtain ⟨_, _, e⟩ | ⟨full, _⟩ := exec_call_cases s nnn
  · exact ⟨_, e, rfl, rfl, rfl, by simp [unchangedBut, State.reg, State.pixel, State.memRead]⟩
  · exact absurd full (Nat.ne_of_lt room)

theorem exec_call_of_full (nnn : Addr) (full : s.sp.val = 16) : exec (.call nnn) s = .fault .stackOverflow := by
  obtain ⟨room, _, _⟩ | ⟨_, e⟩ := exec_call_cases s nnn
  · exact absurd full (Nat.ne_of_lt room)
  · exact e

/-- Settles O20: the two cases of `exec_call_cases`; the slots are read off the vector's `set`. -/
theorem callPushesTheReturnAddress : Obligations.CallPushesTheReturnAddress := by
  intro nnn s
  refine ⟨decode_callWord nnn, fun room => ?_, exec_call_of_full s nnn⟩
  obtain ⟨t, he, hpc, hsp, hstack, frame⟩ := exec_call_of_room s nnn room
  refine ⟨t, he, hpc, hsp, ?_, fun j other => ?_, frame⟩
  · rw [hstack, Vector.getElem?_set_self]
  · rw [hstack, Vector.getElem?_set_ne room other.symm]

/-! ### Branches -/

theorem State.unchangedBut_skipIf (taken : Bool) : unchangedBut [] [.pc] s (s.skipIf taken) :=
  s.skipIf_eq taken ▸ s.unchangedBut_setPc _

/-- A taken Branch advances `pc` by 2 modulo 4096 (spec/00_scope.md R9). -/
theorem State.skipIf_pc_toNat (taken : Bool) :
    (s.skipIf taken).pc.toNat = if taken then (s.pc.toNat + 2) % 4096 else s.pc.toNat := by
  rw [s.skipIf_eq]
  cases taken
  · rfl
  · exact BitVec.toNat_add s.pc 2

theorem State.skipIf_beq_pc_toNat (a b : Byte) :
    (s.skipIf (a == b)).pc.toNat = if a = b then (s.pc.toNat + 2) % 4096 else s.pc.toNat := by
  simp [s.skipIf_pc_toNat]

theorem State.skipIf_bne_pc_toNat (a b : Byte) :
    (s.skipIf (a != b)).pc.toNat = if a = b then s.pc.toNat else (s.pc.toNat + 2) % 4096 := by
  simp [s.skipIf_pc_toNat]

/-- Settles O23: the rows of families 3, 4, 5 and 9, and each Branch as a skip on a comparison of two bytes. -/
theorem branchesSkipOnTheirCondition : Obligations.BranchesSkipOnTheirCondition := by
  intro x y kk s
  have valid5 := (decode_family5 x y 0x0#4).trans (if_pos rfl)
  have valid9 := (decode_family9 x y 0x0#4).trans (if_pos rfl)
  have invalid (n : Nibble) (hn : n ≠ 0x0#4) :=
    And.intro ((decode_family5 x y n).trans (if_neg hn)) ((decode_family9 x y n).trans (if_neg hn))
  exact
    ⟨⟨decode_skipEqVxKkWord x kk, decode_skipNeVxKkWord x kk, valid5, valid9, invalid⟩,
      ⟨_, exec_skipEqVxKk s x kk, s.unchangedBut_skipIf _, s.skipIf_beq_pc_toNat _ _⟩,
      ⟨_, exec_skipNeVxKk s x kk, s.unchangedBut_skipIf _, s.skipIf_bne_pc_toNat _ _⟩,
      ⟨_, exec_skipEqVxVy s x y, s.unchangedBut_skipIf _, s.skipIf_beq_pc_toNat _ _⟩,
      ⟨_, exec_skipNeVxVy s x y, s.unchangedBut_skipIf _, s.skipIf_bne_pc_toNat _ _⟩⟩

end Machine
end Sys2Proof
end

section
/-! The arithmetic that writes its target and no flag (spec/42_arithmetic.md R160 to R165, obligations O24, O25): the words
under the decoder, then each execute step as one register write. -/

namespace Sys2Proof

/-! ### The words of families 6, 7 and 8 (spec/30_encoding.md R95) -/

theorem decode_setVxKkWord (x : Nibble) (kk : Byte) : decode (packXkk 0x6#4 x kk) = .ok (.setVxKk x kk) := by
  simp [decode]

theorem decode_addVxKkWord (x : Nibble) (kk : Byte) : decode (packXkk 0x7#4 x kk) = .ok (.addVxKk x kk) := by
  simp [decode]

/-- Family 8 is left to its own decoder, which reads the last nibble. -/
theorem decode_family8 (x y n : Nibble) : decode (packXyn 0x8#4 x y n) = decodeFamily8 (packXyn 0x8#4 x y n) := by
  simp [decode]

theorem decode_setVxVyWord (x y : Nibble) : decode (packXyn 0x8#4 x y 0x0#4) = .ok (.setVxVy x y) := by
  simp [decode_family8, decodeFamily8]

theorem decode_orVxVyWord (x y : Nibble) : decode (packXyn 0x8#4 x y 0x1#4) = .ok (.orVxVy x y) := by
  simp [decode_family8, decodeFamily8]

theorem decode_andVxVyWord (x y : Nibble) : decode (packXyn 0x8#4 x y 0x2#4) = .ok (.andVxVy x y) := by
  simp [decode_family8, decodeFamily8]

theorem decode_xorVxVyWord (x y : Nibble) : decode (packXyn 0x8#4 x y 0x3#4) = .ok (.xorVxVy x y) := by
  simp [decode_family8, decodeFamily8]

namespace Machine

variable (s : State)

/-! ### One register write -/

/-- A register write leaves every other register, `VF` among them, and every part as it was (R176). -/
theorem State.unchangedBut_setReg (x : Nibble) (b : Byte) : unchangedBut [x] [] s (s.setReg x b) := by
  have other (z : Nibble) (hz : z ∉ [x]) : (s.setReg x b).reg z = s.reg z :=
    s.reg_setReg_other x z b (List.ne_of_not_mem_cons hz)
  simpa [unchangedBut] using other

/-- The written register holds the sum modulo 256, whatever its number (R161). -/
theorem State.reg_setReg_add_toNat (x : Nibble) (a b : Byte) :
    ((s.setReg x (a + b)).reg x).toNat = (a.toNat + b.toNat) % 256 := by
  rw [s.reg_setReg_same, BitVec.toNat_add]

/-- Settles O24: three register writes, the sum read off modulo 2^8. -/
theorem assignAndWrappingAddWriteTheTarget : Obligations.AssignAndWrappingAddWriteTheTarget :=
  fun x y kk s =>
    ⟨⟨decode_setVxKkWord x kk, decode_addVxKkWord x kk, decode_setVxVyWord x y⟩,
      ⟨_, exec_setVxKk s x kk, s.reg_setReg_same x _, s.unchangedBut_setReg x _⟩,
      ⟨_, exec_addVxKk s x kk, s.reg_setReg_add_toNat x _ _, s.unchangedBut_setReg x _⟩,
      ⟨_, exec_setVxVy s x y, s.reg_setReg_same x _, s.unchangedBut_setReg x _⟩⟩

/-- Settles O25: three register writes, each bit of the result by the library's lemma about the operation. -/
theorem bitwiseOperationsActBitByBit : Obligations.BitwiseOperationsActBitByBit := by
  intro x y s
  refine ⟨⟨decode_orVxVyWord x y, decode_andVxVyWord x y, decode_xorVxVyWord x y⟩,
    ⟨_, exec_orVxVy s x y, s.unchangedBut_setReg x _, fun k => ?_⟩,
    ⟨_, exec_andVxVy s x y, s.unchangedBut_setReg x _, fun k => ?_⟩,
    ⟨_, exec_xorVxVy s x y, s.unchangedBut_setReg x _, fun k => ?_⟩⟩
  · rw [s.reg_setReg_same, BitVec.getLsbD_or]
  · rw [s.reg_setReg_same, BitVec.getLsbD_and]
  · rw [s.reg_setReg_same, BitVec.getLsbD_xor]

end Machine
end Sys2Proof
end

section
/-! Clear (spec/43_graphics.md R190, obligation O31): its word under the decoder, and its execute step as the display replaced
by one that lists no pixel. -/

namespace Sys2Proof

theorem decode_clearWord : decode 0x00E0#16 = .ok .graphicsClear := by
  decide

namespace Machine

variable (s : State)

/-- A display that lists no pixel is off at every pixel (spec/10_state.md R28). -/
theorem State.pixel_setDisp_nil (p : Nat) : (s.setDisp []).pixel p = 0x00#8 := rfl

/-- A replaced display leaves every register, `VF` among them, and every other part as it was (R190). -/
theorem State.unchangedBut_setDisp (d : List Host.Cell) : unchangedBut [] [.disp] s (s.setDisp d) := by
  simp [unchangedBut]

/-- Settles O31: the decoder's fixed word, and the frame of a new display. -/
theorem clearTurnsEveryPixelOff : Obligations.ClearTurnsEveryPixelOff :=
  ⟨decode_clearWord, fun s => ⟨s.setDisp [], exec_graphicsClear s, s.pixel_setDisp_nil, s.unchangedBut_setDisp []⟩⟩

end Machine
end Sys2Proof
end

section
/-! IndexSet and Font (spec/44_index_font.md R210, R212, obligation O35): their words under the decoder, the frame of a new
`I`, and the address of a glyph as a number. -/

namespace Sys2Proof

theorem decode_indexSetWord (nnn : Addr) : decode (packNnn 0xA#4 nnn) = .ok (.indexSet nnn) := by
  simp [decode]

/-- Family F is left to its own decoder, which reads the low byte. -/
theorem decode_familyF (x : Nibble) (kk : Byte) : decode (packXkk 0xF#4 x kk) = decodeFamilyF (packXkk 0xF#4 x kk) := by
  simp [decode]

theorem decode_fontVxWord (x : Nibble) : decode (packXkk 0xF#4 x 0x29#8) = .ok (.fontVx x) := by
  simp [decode_familyF, decodeFamilyF]

namespace Machine

variable (s : State)

theorem State.unchangedBut_setI (a : Addr) : unchangedBut [] [.i] s (s.setI a) := by
  simp [unchangedBut]

theorem glyphAddress_toNat (c : Config) (b : Byte) :
    (glyphAddress c b).toNat = (c.fontBase.toNat + 5 * (b.toNat % 16)) % 4096 := by
  rw [glyphAddress, BitVec.toNat_add, BitVec.toNat_ofNat, Nat.add_mod_mod]

/-- The 16 glyphs of a font that ends at `0x200` or below lie in memory, so none of their addresses wraps (R5). -/
theorem glyphAddress_toNat_of_legal {c : Config} (legal : configLegal c = true) (b : Byte) :
    (glyphAddress c b).toNat = c.fontBase.toNat + 5 * (b.toNat % 16) := by
  have fontEnd : c.fontBase.toNat + 80 ≤ 0x200 := of_decide_eq_true legal
  rw [glyphAddress_toNat]
  exact Nat.mod_eq_of_lt (by omega)

/-- Settles O35: both execute steps are one write of `I`, the glyph's address read off modulo 4096. -/
theorem indexSetAndFontWriteIAlone : Obligations.IndexSetAndFontWriteIAlone :=
  fun nnn x s =>
    ⟨⟨decode_indexSetWord nnn, decode_fontVxWord x⟩,
      ⟨_, exec_indexSet s nnn, s.setI_i nnn, s.unchangedBut_setI nnn⟩,
      ⟨_, exec_fontVx s x, glyphAddress_toNat s.config (s.reg x),
        fun legal => glyphAddress_toNat_of_legal legal (s.reg x), s.unchangedBut_setI _⟩⟩

end Machine
end Sys2Proof
end

section
/-! The tick over an invalid word (spec/60_exceptions.md R231, obligation O12): the words of R97 under the decoder, family by
family, then the state after the fault. -/

namespace Sys2Proof

variable {op : OpWord}

/-! ### The words that select no row (spec/30_encoding.md R97) -/

theorem decodeFamily8_invalid (high : 0x8#4 ≤ fieldN op) (notShl : fieldN op ≠ 0xE#4) :
    decodeFamily8 op = .error (.invalidOpCode op) := by
  unfold decodeFamily8
  split
  case h_10 => rfl
  case h_9 shl => exact absurd shl notShl
  all_goals
    next low => exact absurd (low ▸ high) (by decide)

theorem decodeFamilyF_invalid (unlisted : fieldKk op ∉ [0x07#8, 0x0A#8, 0x15#8, 0x18#8, 0x1E#8, 0x29#8]) :
    decodeFamilyF op = .error (.invalidOpCode op) := by
  unfold decodeFamilyF
  split
  case h_7 => rfl
  all_goals
    next listed => exact absurd (listed ▸ unlisted) (by decide)

/-- Family E holds no instruction. -/
theorem decode_familyE (hf : fieldF op = 0xE#4) : decode op = .error (.invalidOpCode op) := by
  simp [decode, hf]

/-- A word of R97's table decodes to the error that carries it. -/
theorem decode_of_invalidWord (h : Machine.invalidWord op) : decode op = .error (.invalidOpCode op) := by
  obtain ⟨hf, hn⟩ | ⟨hf, high, notShl⟩ | ⟨hf, hn⟩ | hf | ⟨hf, unlisted⟩ := h
  · have row := decode_family5 (fieldX op) (fieldY op) (fieldN op)
    rw [packXyn_of_family hf] at row
    exact row.trans (if_neg hn)
  · have row := decode_family8 (fieldX op) (fieldY op) (fieldN op)
    rw [packXyn_of_family hf] at row
    exact row.trans (decodeFamily8_invalid high notShl)
  · have row := decode_family9 (fieldX op) (fieldY op) (fieldN op)
    rw [packXyn_of_family hf] at row
    exact row.trans (if_neg hn)
  · exact decode_familyE hf
  · have row := decode_familyF (fieldX op) (fieldKk op)
    rw [packXkk_of_family hf] at row
    exact row.trans (decodeFamilyF_invalid unlisted)

namespace Machine

variable {s : State}

/-- The latched key is no part of what is fetched (R122). -/
@[simp] theorem State.latchKey_fetchWord (s : State) (keyIn : Option Nibble) :
    (s.latchKey keyIn).fetchWord = s.fetchWord := rfl

theorem tick_of_invalidWord (keyIn : Option Nibble) (running : s.exited = false) (invalid : invalidWord s.fetchWord) :
    tick keyIn s = .fault (.invalidOpCode s.fetchWord) :=
  tick_of_decode_error keyIn running (decode_of_invalidWord invalid)

theorem stateAfterTick_of_invalidOpCode {keyIn : Option Nibble}
    (h : tick keyIn s = .fault (.invalidOpCode op)) : stateAfterTick keyIn s = some (s.latchKey keyIn) := by
  rw [stateAfterTick, h]

/-- Settles O12: the fault by the decoder's error on the fetched word, which a latched key leaves as it was. -/
theorem invalidOpcodeLeavesTheStateAsItWas : Obligations.InvalidOpcodeLeavesTheStateAsItWas := by
  intro keyIn s running invalid
  have faults := tick_of_invalidWord keyIn running invalid
  have repeated (keyIn' : Option Nibble) :
      tick keyIn' (s.latchKey keyIn) = .fault (.invalidOpCode s.fetchWord) := by
    rw [← s.latchKey_fetchWord keyIn] at invalid ⊢
    exact tick_of_invalidWord keyIn' ((s.latchKey_exited keyIn).trans running) invalid
  exact ⟨faults, stateAfterTick_of_invalidOpCode faults, repeated⟩

end Machine
end Sys2Proof
end

section
/-! Load (spec/70_reset_and_hazards.md R261, obligation O54): the byte read at an address a load fills and at one it does
not, and its frame. -/

namespace Sys2Proof.Machine

variable {offset a : Addr} {bytes : List Byte} (s : State)

/-- A byte of the list is read at its distance from the offset; an address is at most `0xFFF`, so the dropped bytes are
those no address is that far for. -/
theorem hostLoad_memRead_loaded {k : Nat} (hk : k < bytes.length) (ha : a.toNat = offset.toNat + k) :
    (hostLoad offset bytes s).memRead a = bytes[k] := by
  have distance : a.toNat - offset.toNat = k := by omega
  have notBelow : offset.toNat ≤ a.toNat := by omega
  rw [hostLoad, s.loadBytes_memRead, if_pos notBelow, distance, List.getElem?_eq_getElem hk, Option.getD_some]

/-- An address before the first byte or past the last one reads as before: no byte wraps to it. -/
theorem hostLoad_memRead_beside (beside : a.toNat < offset.toNat ∨ offset.toNat + bytes.length ≤ a.toNat) :
    (hostLoad offset bytes s).memRead a = s.memRead a := by
  rw [hostLoad, s.loadBytes_memRead]
  obtain below | past := beside
  · exact if_neg (Nat.not_le_of_lt below)
  · have noByte : bytes.length ≤ a.toNat - offset.toNat := by omega
    rw [List.getElem?_eq_none noByte, Option.getD_none, ite_self]

/-- Settles O54: the two reads by what memory reads after a load, the frame by the load's own. -/
theorem loadCopiesAndTruncates : Obligations.LoadCopiesAndTruncates :=
  fun offset bytes s =>
    ⟨fun _ hk _ ha => hostLoad_memRead_loaded s hk ha, fun _ beside => hostLoad_memRead_beside s beside,
      s.loadBytes_eq offset.toNat bytes⟩

end Sys2Proof.Machine
end

section
/-! The decoder (spec/30_encoding.md R90, R95 to R97, obligations O1, O2, O4, O5, O6): the words of the rows not yet read above,
the decoder on every encoding, the row a word selects, and the words that select none. -/

namespace Sys2Proof

variable {op : OpWord} {i : Instr}

/-! ### The words of the other rows (R95) -/

theorem sysTargetFree_iff (nnn : Addr) :
    sysTargetFree nnn = true ↔ nnn ≠ 0x0E0#12 ∧ nnn ≠ 0x0EE#12 ∧ nnn ≠ 0x0FD#12 := by
  simp [sysTargetFree, and_assoc]

/-- The word of a free address is none of the three fixed ones. -/
theorem sysWord_ne {nnn : Addr} (free : sysTargetFree nnn = true) :
    packNnn 0x0#4 nnn ≠ 0x00E0#16 ∧ packNnn 0x0#4 nnn ≠ 0x00EE#16 ∧ packNnn 0x0#4 nnn ≠ 0x00FD#16 := by
  have address {w : OpWord} (e : packNnn 0x0#4 nnn = w) : nnn = fieldNnn w := e ▸ (fieldNnn_packNnn _ _).symm
  obtain ⟨notClear, notRet, notExit⟩ := (sysTargetFree_iff nnn).mp free
  exact ⟨fun e => notClear (address e), fun e => notRet (address e), fun e => notExit (address e)⟩

theorem decode_sysWord {nnn : Addr} (free : sysTargetFree nnn = true) :
    decode (packNnn 0x0#4 nnn) = .ok (.sys nnn) := by
  obtain ⟨clear, ret, exit⟩ := sysWord_ne free
  simp [decode, decodeFamily0, clear, ret, exit]

theorem decode_retWord : decode 0x00EE#16 = .ok .ret := by
  decide

theorem decode_exitWord : decode 0x00FD#16 = .ok .exit := by
  decide

theorem decode_addcVxVyWord (x y : Nibble) : decode (packXyn 0x8#4 x y 0x4#4) = .ok (.addcVxVy x y) := by
  simp [decode_family8, decodeFamily8]

theorem decode_subVxVyWord (x y : Nibble) : decode (packXyn 0x8#4 x y 0x5#4) = .ok (.subVxVy x y) := by
  simp [decode_family8, decodeFamily8]

theorem decode_shrVxVyWord (x y : Nibble) : decode (packXyn 0x8#4 x y 0x6#4) = .ok (.shrVxVy x y) := by
  simp [decode_family8, decodeFamily8]

theorem decode_subrVxVyWord (x y : Nibble) : decode (packXyn 0x8#4 x y 0x7#4) = .ok (.subrVxVy x y) := by
  simp [decode_family8, decodeFamily8]

theorem decode_shlVxVyWord (x y : Nibble) : decode (packXyn 0x8#4 x y 0xE#4) = .ok (.shlVxVy x y) := by
  simp [decode_family8, decodeFamily8]

theorem decode_jumpV0Word (nnn : Addr) : decode (packNnn 0xB#4 nnn) = .ok (.jumpV0 nnn) := by
  simp [decode]

theorem decode_randVxKkWord (x : Nibble) (kk : Byte) : decode (packXkk 0xC#4 x kk) = .ok (.randVxKk x kk) := by
  simp [decode]

theorem decode_graphicsDrawWord (x y n : Nibble) : decode (packXyn 0xD#4 x y n) = .ok (.graphicsDraw x y n) := by
  simp [decode]

theorem decode_timerGetWord (x : Nibble) : decode (packXkk 0xF#4 x 0x07#8) = .ok (.timerGet x) := by
  simp [decode_familyF, decodeFamilyF]

theorem decode_keyAwaitWord (x : Nibble) : decode (packXkk 0xF#4 x 0x0A#8) = .ok (.keyAwait x) := by
  simp [decode_familyF, decodeFamilyF]

theorem decode_setDelayWord (x : Nibble) : decode (packXkk 0xF#4 x 0x15#8) = .ok (.setDelay x) := by
  simp [decode_familyF, decodeFamilyF]

theorem decode_setSoundWord (x : Nibble) : decode (packXkk 0xF#4 x 0x18#8) = .ok (.setSound x) := by
  simp [decode_familyF, decodeFamilyF]

theorem decode_indexAddWord (x : Nibble) : decode (packXkk 0xF#4 x 0x1E#8) = .ok (.indexAdd x) := by
  simp [decode_familyF, decodeFamilyF]

/-! ### Decoding an encoding (R96) -/

/-- The encoding of each row is the word its own lemma decodes. -/
theorem decode_encode (wf : i.wellFormed = true) : decode (encode i) = .ok i := by
  cases i with
  | graphicsClear => exact decode_clearWord
  | ret => exact decode_retWord
  | exit => exact decode_exitWord
  | sys nnn => exact decode_sysWord wf
  | jump nnn => exact decode_jumpWord nnn
  | call nnn => exact decode_callWord nnn
  | skipEqVxKk x kk => exact decode_skipEqVxKkWord x kk
  | skipNeVxKk x kk => exact decode_skipNeVxKkWord x kk
  | skipEqVxVy x y => exact (decode_family5 x y 0x0#4).trans (if_pos rfl)
  | setVxKk x kk => exact decode_setVxKkWord x kk
  | addVxKk x kk => exact decode_addVxKkWord x kk
  | setVxVy x y => exact decode_setVxVyWord x y
  | orVxVy x y => exact decode_orVxVyWord x y
  | andVxVy x y => exact decode_andVxVyWord x y
  | xorVxVy x y => exact decode_xorVxVyWord x y
  | addcVxVy x y => exact decode_addcVxVyWord x y
  | subVxVy x y => exact decode_subVxVyWord x y
  | shrVxVy x y => exact decode_shrVxVyWord x y
  | subrVxVy x y => exact decode_subrVxVyWord x y
  | shlVxVy x y => exact decode_shlVxVyWord x y
  | skipNeVxVy x y => exact (decode_family9 x y 0x0#4).trans (if_pos rfl)
  | indexSet nnn => exact decode_indexSetWord nnn
  | jumpV0 nnn => exact decode_jumpV0Word nnn
  | randVxKk x kk => exact decode_randVxKkWord x kk
  | graphicsDraw x y n => exact decode_graphicsDrawWord x y n
  | timerGet x => exact decode_timerGetWord x
  | keyAwait x => exact decode_keyAwaitWord x
  | setDelay x => exact decode_setDelayWord x
  | setSound x => exact decode_setSoundWord x
  | indexAdd x => exact decode_indexAddWord x
  | fontVx x => exact decode_fontVxWord x

/-- Settles O2: instruction by instruction, by the decoder on the words of its row. -/
theorem decodeOfEncodeIsIdentity : Obligations.DecodeOfEncodeIsIdentity :=
  fun _ => decode_encode

/-- Settles O1: the decoder computes on each of the listed words. -/
theorem listedWordsDecodeAsListed : Obligations.ListedWordsDecodeAsListed := by
  refine ⟨?_, ?_, ?_, by decide⟩
  · decide
  · decide
  · decide

/-! ### The invalid words are the ones that do not decode (R97) -/

theorem nibble_row8_or_invalid : ∀ n : Nibble,
    n ∈ [0x0#4, 0x1#4, 0x2#4, 0x3#4, 0x4#4, 0x5#4, 0x6#4, 0x7#4, 0xE#4] ∨ (0x8#4 ≤ n ∧ n ≠ 0xE#4) := by
  decide

theorem nibble_family_with_rows_or_E : ∀ f : Nibble,
    f ∈ [0x0#4, 0x1#4, 0x2#4, 0x3#4, 0x4#4, 0x5#4, 0x6#4, 0x7#4, 0x8#4, 0x9#4, 0xA#4, 0xB#4, 0xC#4, 0xD#4, 0xF#4] ∨
      f = 0xE#4 := by
  decide

theorem invalid_of_decodeFamily8 {e : DecodeError} (h : decodeFamily8 op = .error e) :
    0x8#4 ≤ fieldN op ∧ fieldN op ≠ 0xE#4 := by
  unfold decodeFamily8 at h
  split at h
  case h_10 => exact (nibble_row8_or_invalid (fieldN op)).resolve_left (by simp_all)
  all_goals cases h

theorem unlisted_of_decodeFamilyF {e : DecodeError} (h : decodeFamilyF op = .error e) :
    fieldKk op ∉ [0x07#8, 0x0A#8, 0x15#8, 0x18#8, 0x1E#8, 0x29#8] := by
  unfold decodeFamilyF at h
  split at h
  case h_7 => simp_all
  all_goals cases h

/-- A word that does not decode is one of R97's table. -/
theorem invalidWord_of_decode {e : DecodeError} (h : decode op = .error e) : Machine.invalidWord op := by
  unfold decode at h
  split at h
  case h_6 hf =>
    split at h
    case isTrue => cases h
    case isFalse hn => exact .inl ⟨hf, hn⟩
  case h_9 hf => exact .inr (.inl ⟨hf, invalid_of_decodeFamily8 h⟩)
  case h_10 hf =>
    split at h
    case isTrue => cases h
    case isFalse hn => exact .inr (.inr (.inl ⟨hf, hn⟩))
  case h_15 hf => exact .inr (.inr (.inr (.inr ⟨hf, unlisted_of_decodeFamilyF h⟩)))
  case h_16 =>
    have hf : fieldF op = 0xE#4 := (nibble_family_with_rows_or_E (fieldF op)).resolve_left (by simp_all)
    exact .inr (.inr (.inr (.inl hf)))
  all_goals cases h

/-- Settles O5: the table's words fail with the word; a word that fails is of the table. -/
theorem invalidWordsAreTheListedOnes : Obligations.InvalidWordsAreTheListedOnes := by
  refine fun op => ⟨decode_of_invalidWord, fun valid => ?_⟩
  cases hd : decode op with
  | ok i => exact ⟨i, rfl⟩
  | error e => exact absurd (invalidWord_of_decode hd) valid

end Sys2Proof
end

section
/-! The opcode map (spec/30_encoding.md R90, R95, R97, obligations O4, O6): the first row a word selects, by the fields the rows
of its family read; and how many words of a family select none. -/

namespace Sys2Proof

variable {op : OpWord} {i : Instr}

/-! ### The rows of one family -/

/-- Every mask of R90 holds the bits of the family. -/
theorem mask_family : ∀ r ∈ opcodeRows, r.mask &&& 0xF000#16 = 0xF000#16 := by
  decide

theorem and_familyMask (op : OpWord) : op &&& 0xF000#16 = packNnn (fieldF op) 0#12 := by
  rw [← packNnn_mask (fieldF op) (fieldNnn op), packNnn_fields]

/-- A selected row is of the word's family. -/
theorem fieldF_of_selects {r : OpcodeRow} (hr : r ∈ opcodeRows) (h : r.selects op = true) :
    fieldF r.value = fieldF op := by
  have value : op &&& r.mask = r.value := by simpa [OpcodeRow.selects] using h
  have family : r.value &&& 0xF000#16 = op &&& 0xF000#16 := by
    rw [← value, BitVec.and_assoc, mask_family r hr]
  rw [and_familyMask, and_familyMask] at family
  simpa using congrArg fieldF family

/-- Two words of one family that look alike under the masks of its rows select the same row. -/
theorem selectedRow_congr {w : OpWord} (hf : fieldF op = fieldF w)
    (alike : ∀ r ∈ opcodeRows, fieldF r.value = fieldF w → op &&& r.mask = w &&& r.mask) :
    selectedRow op = selectedRow w := by
  have same (r) (hr : r ∈ opcodeRows) : r.selects op = r.selects w := by
    by_cases family : fieldF r.value = fieldF w
    · rw [OpcodeRow.selects, OpcodeRow.selects, alike r hr family]
    · rw [Bool.eq_false_iff.mpr fun h => family ((fieldF_of_selects hr h).trans hf),
        Bool.eq_false_iff.mpr fun h => family (fieldF_of_selects hr h)]
  rw [selectedRow, selectedRow, List.find?_congr same]

/-- In a family whose rows read no field but the family's own, every word selects the same row. -/
theorem selectedRow_packNnn {f : Nibble} (rows : ∀ r ∈ opcodeRows, fieldF r.value = f → r.mask = 0xF000#16)
    (nnn : Addr) : selectedRow (packNnn f nnn) = selectedRow (packNnn f 0#12) := by
  refine selectedRow_congr (by simp) fun r hr hf => ?_
  rw [rows r hr (by simpa using hf), packNnn_mask, packNnn_mask]

theorem selectedRow_packXkk {f : Nibble} (rows : ∀ r ∈ opcodeRows, fieldF r.value = f → r.mask = 0xF000#16)
    (x : Nibble) (kk : Byte) : selectedRow (packXkk f x kk) = selectedRow (packNnn f 0#12) := by
  refine selectedRow_congr (by simp) fun r hr hf => ?_
  rw [rows r hr (by simpa using hf), packXkk_mask, packNnn_mask]

/-- In families 5, 8 and 9 the last nibble picks the row. -/
theorem selectedRow_packXyn {f : Nibble} (rows : ∀ r ∈ opcodeRows, fieldF r.value = f → r.mask = 0xF00F#16)
    (x y n : Nibble) : selectedRow (packXyn f x y n) = selectedRow (packXyn f 0#4 0#4 n) := by
  refine selectedRow_congr (by simp) fun r hr hf => ?_
  rw [rows r hr (by simpa using hf), packXyn_mask_n, packXyn_mask_n]

/-- In family F the low byte picks the row. -/
theorem selectedRow_familyF (x : Nibble) (kk : Byte) :
    selectedRow (packXkk 0xF#4 x kk) = selectedRow (packXkk 0xF#4 0#4 kk) := by
  have rows : ∀ r ∈ opcodeRows, fieldF r.value = 0xF#4 → r.mask = 0xF0FF#16 := by decide
  refine selectedRow_congr (by simp) fun r hr hf => ?_
  rw [rows r hr (by simpa using hf), packXkk_mask_kk, packXkk_mask_kk]

/-! ### The row of an encoding (R90, R96) -/

/-- SysCall is tried after the three fixed words, which a free address avoids. -/
theorem selectedRow_sys {nnn : Addr} (free : sysTargetFree nnn = true) :
    selectedRow (packNnn 0x0#4 nnn) = some 4 := by
  obtain ⟨clear, ret, exit⟩ := sysWord_ne free
  have full (w : OpWord) : w &&& 0xFFFF#16 = w := BitVec.and_allOnes
  have sys : packNnn 0x0#4 nnn &&& 0xF000#16 = 0x0000#16 := packNnn_mask _ _
  simp [selectedRow, opcodeRows, opcodeRowsA, OpcodeRow.selects, full, clear, ret, exit, sys]

/-- The first row that the encoding of an instruction selects is the instruction's own. -/
theorem selectedRow_encode (wf : i.wellFormed = true) : selectedRow (encode i) = some i.rowNumber := by
  cases i with
  | graphicsClear | ret | exit => decide
  | sys nnn => exact selectedRow_sys wf
  | jump nnn | call nnn | indexSet nnn | jumpV0 nnn =>
    exact (selectedRow_packNnn (by decide) nnn).trans rfl
  | skipEqVxKk x kk | skipNeVxKk x kk | setVxKk x kk | addVxKk x kk | randVxKk x kk =>
    exact (selectedRow_packXkk (by decide) x kk).trans rfl
  | graphicsDraw x y n => exact (selectedRow_packXkk (by decide) x (y ++ n)).trans rfl
  | skipEqVxVy x y | setVxVy x y | orVxVy x y | andVxVy x y | xorVxVy x y | addcVxVy x y | subVxVy x y
  | shrVxVy x y | subrVxVy x y | shlVxVy x y | skipNeVxVy x y =>
    exact (selectedRow_packXyn (by decide) x y _).trans rfl
  | timerGet x | keyAwait x | setDelay x | setSound x | indexAdd x | fontVx x =>
    exact (selectedRow_familyF x _).trans rfl

/-! ### The invalid words select no row (R97) -/

/-- No family-F word but those of the six listed bytes selects a row. -/
theorem selectedRow_familyF_unlisted {kk : Byte}
    (unlisted : kk ∉ [0x07#8, 0x0A#8, 0x15#8, 0x18#8, 0x1E#8, 0x29#8]) :
    selectedRow (packXkk 0xF#4 0#4 kk) = none := by
  have values : ∀ r ∈ opcodeRows, fieldF r.value = 0xF#4 →
      r.mask = 0xF0FF#16 ∧ fieldKk r.value ∈ [0x07#8, 0x0A#8, 0x15#8, 0x18#8, 0x1E#8, 0x29#8] := by decide
  rw [selectedRow, Option.map_eq_none_iff, List.find?_eq_none]
  intro r hr h
  obtain ⟨mask, listed⟩ := values r hr (by simpa using fieldF_of_selects hr h)
  have value : packXkk 0xF#4 0#4 kk = r.value := by
    simpa [OpcodeRow.selects, mask, packXkk_mask_kk] using h
  exact unlisted (by simpa [← value] using listed)

theorem selectedRow_of_invalidWord (h : Machine.invalidWord op) : selectedRow op = none := by
  obtain ⟨hf, hn⟩ | ⟨hf, high, notShl⟩ | ⟨hf, hn⟩ | hf | ⟨hf, unlisted⟩ := h
  · rw [← packXyn_of_family hf, selectedRow_packXyn (by decide)]
    have none5 : ∀ n : Nibble, n ≠ 0x0#4 → selectedRow (packXyn 0x5#4 0#4 0#4 n) = none := by decide
    exact none5 _ hn
  · rw [← packXyn_of_family hf, selectedRow_packXyn (by decide)]
    have none8 : ∀ n : Nibble, 0x8#4 ≤ n → n ≠ 0xE#4 → selectedRow (packXyn 0x8#4 0#4 0#4 n) = none := by decide
    exact none8 _ high notShl
  · rw [← packXyn_of_family hf, selectedRow_packXyn (by decide)]
    have none9 : ∀ n : Nibble, n ≠ 0x0#4 → selectedRow (packXyn 0x9#4 0#4 0#4 n) = none := by decide
    exact none9 _ hn
  · rw [← packNnn_of_family hf, selectedRow_packNnn (by decide)]
    decide
  · rw [← packXkk_of_family hf, selectedRow_familyF]
    exact selectedRow_familyF_unlisted unlisted

/-- Settles O4: a word that decodes is the encoding of its instruction, and one that does not is of R97's table. -/
theorem decoderPicksFirstSelectedRow : Obligations.DecoderPicksFirstSelectedRow := by
  refine fun op => ⟨fun i hd => ?_, fun e hd => selectedRow_of_invalidWord (invalidWord_of_decode hd)⟩
  obtain ⟨word, wf⟩ := encode_of_decode hd
  exact word ▸ selectedRow_encode wf

/-! ### Counting (R97) -/

theorem fieldN_eq_fieldKk (op : OpWord) : fieldN op = (fieldKk op).extractLsb' 0 4 := by
  refine BitVec.eq_of_getLsbD_eq fun k hk => ?_
  simp [fieldN, fieldKk, hk]

namespace Machine

/-- The table of R97 reads the family and the low byte alone. -/
theorem invalidWord_congr {w : OpWord} (hf : fieldF op = fieldF w) (hkk : fieldKk op = fieldKk w) :
    invalidWord op ↔ invalidWord w := by
  have hn : fieldN op = fieldN w := by rw [fieldN_eq_fieldKk, hkk, ← fieldN_eq_fieldKk]
  change (fieldF op = _ ∧ fieldN op ≠ _) ∨ (fieldF op = _ ∧ _ ≤ fieldN op ∧ fieldN op ≠ _) ∨
    (fieldF op = _ ∧ fieldN op ≠ _) ∨ fieldF op = _ ∨ (fieldF op = _ ∧ fieldKk op ∉ _) ↔ _
  rw [hf, hkk, hn]
  rfl

theorem invalidOne_of_invalidWord (h : invalidWord op) : invalidOne op = 1 := by
  rw [invalidOne, decode_of_invalidWord h]

theorem invalidOne_of_valid (h : ¬ invalidWord op) : invalidOne op = 0 := by
  obtain ⟨i, hd⟩ := (invalidWordsAreTheListedOnes op).2 h
  rw [invalidOne, hd]

theorem invalidOne_packXkk (f x : Nibble) (kk : Byte) :
    invalidOne (packXkk f x kk) = invalidOne (packXkk f 0x0#4 kk) := by
  have same : invalidWord (packXkk f x kk) ↔ invalidWord (packXkk f 0x0#4 kk) :=
    invalidWord_congr (by simp) (by simp)
  by_cases h : invalidWord (packXkk f x kk)
  · rw [invalidOne_of_invalidWord h, invalidOne_of_invalidWord (same.mp h)]
  · rw [invalidOne_of_valid h, invalidOne_of_valid (mt same.mpr h)]

/-- Every `x` gives as many invalid words. -/
theorem invalidInFamily_eq (f : Nibble) : invalidInFamily f =
    16 * ((List.range 256).map fun kk => invalidOne (packXkk f 0x0#4 (BitVec.ofNat 8 kk))).sum := by
  change ((List.range 16).map fun x => ((List.range 256).map fun kk =>
    invalidOne (packXkk f (BitVec.ofNat 4 x) (BitVec.ofNat 8 kk))).sum).sum = _
  simp only [invalidOne_packXkk, List.map_const', List.length_range, List.sum_replicate, smul_eq_mul]

/-- A family without an entry in R97's table has no invalid word. -/
theorem invalidInFamily_eq_zero {f : Nibble} (valid : f ∉ [0x5#4, 0x8#4, 0x9#4, 0xE#4, 0xF#4]) :
    invalidInFamily f = 0 := by
  have notInvalid (kk : Byte) : ¬ invalidWord (packXkk f 0x0#4 kk) := by
    have family : (packXkk f 0x0#4 kk).extractLsb' 12 4 = f := fieldF_packXkk f 0x0#4 kk
    rw [invalidWord, family]
    simp_all
  simp only [invalidInFamily_eq, invalidOne_of_valid (notInvalid _), List.map_const', List.sum_replicate,
    smul_eq_mul, mul_zero]

/-- Settles O6: a family is 16 times its words with `x = 0`, counted over the low byte; the other families hold none. -/
theorem invalidWordCountIs17568 : Obligations.InvalidWordCountIs17568 := by
  have family5 : invalidInFamily 0x5#4 = 3840 := (invalidInFamily_eq _).trans (by decide +kernel)
  have family8 : invalidInFamily 0x8#4 = 1792 := (invalidInFamily_eq _).trans (by decide +kernel)
  have family9 : invalidInFamily 0x9#4 = 3840 := (invalidInFamily_eq _).trans (by decide +kernel)
  have familyE : invalidInFamily 0xE#4 = 4096 := (invalidInFamily_eq _).trans (by decide +kernel)
  have familyF : invalidInFamily 0xF#4 = 4000 := (invalidInFamily_eq _).trans (by decide +kernel)
  refine ⟨family5, family8, family9, familyE, familyF, ?_⟩
  have others : ∀ f ∈ [0x0#4, 0x1#4, 0x2#4, 0x3#4, 0x4#4, 0x6#4, 0x7#4, 0xA#4, 0xB#4, 0xC#4, 0xD#4],
      invalidInFamily f = 0 := fun f hf => invalidInFamily_eq_zero (by revert f; decide)
  simp only [List.forall_mem_cons] at others
  simp [List.range_succ, family5, family8, family9, familyE, familyF, others]

end Machine
end Sys2Proof
end

section
/-! Raw literals (spec/30_encoding.md R100, R102, obligation O8): the error of a word that does not decode and of a literal wider
than a word. -/

namespace Sys2Proof.Machine

theorem parseRaw_of_decode_error {op w : OpWord} (h : decode op = .error (.invalidOpCode w)) :
    parseRaw op.toNat = .error (.invalidOpCode w) := by
  rw [parseRaw, fitLiteral_toNat, h]

theorem parseRaw_of_wide {value : Nat} (wide : 65536 ≤ value) :
    parseRaw value = .error (.intSize ⟨16, value⟩) := by
  simp [parseRaw, fitLiteral, narrow, Nat.not_lt.mpr wide]

/-- Settles O8: the raw form is one literal, decoded; a literal alone on its line is narrowed to a word first. -/
theorem rawLiteralErrorsAreNamed : Obligations.RawLiteralErrorsAreNamed :=
  ⟨fun op invalid => (parseLine_renderRaw op).trans (parseRaw_of_decode_error (decode_of_invalidWord invalid)),
    fun _ _ wide => parseRaw_of_wide wide⟩

end Sys2Proof.Machine
end

section
/-! What an instruction writes (spec/10_state.md R36, obligations O40, O41, O42): one inversion of the execute step that names
the writers of each part, and one that says where a register may come from. -/

namespace Sys2Proof.Machine

variable {s t : State} {i : Instr}

/-! ### The parts of the state and their writers -/

/-- Exit alone ends the run (spec/45_key_and_system.md R221). -/
def endsRun (i : Instr) : Bool :=
  match i with
  | .exit => true
  | _ => false

/-- The instructions whose meaning can write a general register: those with a destination, and Draw its flag (R21, R22). -/
def writesRegisters (i : Instr) : Bool :=
  match i with
  | .graphicsDraw _ _ _ => true
  | other => (destination other).isSome

/-- All an execute step that gives a next state can change: each part by its writers alone, and memory, the key, the ROM
record, the configuration and the inputs to come by none. -/
theorem exec_writes (h : exec i s = .next t) :
    t = { s with
      v := if writesRegisters i then t.v else s.v
      pc := if writesPc i then t.pc else s.pc
      i := if writesIndex i then t.i else s.i
      dt := if writesDelay i then t.dt else s.dt
      st := if writesSound i then t.st else s.st
      stack := if writesStack i then t.stack else s.stack
      sp := if writesStack i then t.sp else s.sp
      disp := if writesDisplay i then t.disp else s.disp
      draws := t.draws
      exited := if endsRun i then t.exited else s.exited } := by
  cases i with
  | ret =>
    obtain ⟨_, _, _, e⟩ | ⟨_, e⟩ := exec_ret_cases s
    · rw [e] at h; cases h; rfl
    · rw [e] at h; cases h
  | call nnn =>
    obtain ⟨_, _, e⟩ | ⟨_, e⟩ := exec_call_cases s nnn
    · rw [e] at h; cases h; rfl
    · rw [e] at h; cases h
  | sys nnn =>
    rw [exec_sys] at h
    split at h
    · cases h
    · cases h; rfl
  | graphicsDraw x y n =>
    rw [exec_graphicsDraw] at h
    cases h
    split
    · rfl
    · rfl
  | keyAwait x =>
    cases h
    obtain ⟨_, _, e⟩ | ⟨_, e⟩ := s.awaitKey_cases x
    · rw [e]; rfl
    · rw [e]; rfl
  | skipEqVxKk | skipNeVxKk | skipEqVxVy | skipNeVxVy =>
    cases h
    rw [State.skipIf_eq]
    rfl
  | _ => cases h; rfl

theorem exec_v (h : exec i s = .next t) (other : writesRegisters i = false) : t.v = s.v := by
  rw [exec_writes h, other]; rfl

theorem exec_pc (h : exec i s = .next t) (other : writesPc i = false) : t.pc = s.pc := by
  rw [exec_writes h, other]; rfl

theorem exec_i (h : exec i s = .next t) (other : writesIndex i = false) : t.i = s.i := by
  rw [exec_writes h, other]; rfl

theorem exec_dt (h : exec i s = .next t) (other : writesDelay i = false) : t.dt = s.dt := by
  rw [exec_writes h, other]; rfl

theorem exec_st_eq (h : exec i s = .next t) : t.st = if writesSound i then t.st else s.st :=
  congrArg State.st (exec_writes h)

theorem exec_st (h : exec i s = .next t) (other : writesSound i = false) : t.st = s.st := by
  rw [exec_writes h, other]; rfl

theorem exec_stack (h : exec i s = .next t) (other : writesStack i = false) : t.stack = s.stack ∧ t.sp = s.sp := by
  rw [exec_writes h, other]; exact ⟨rfl, rfl⟩

theorem exec_disp (h : exec i s = .next t) (other : writesDisplay i = false) : t.disp = s.disp := by
  rw [exec_writes h, other]; rfl

theorem exec_exited (h : exec i s = .next t) (other : endsRun i = false) : t.exited = s.exited := by
  rw [exec_writes h, other]; rfl

theorem exec_mem (h : exec i s = .next t) : t.mem = s.mem := by
  rw [exec_frame h]

theorem exec_key (h : exec i s = .next t) : t.key = s.key := by
  rw [exec_frame h]

theorem exec_rom (h : exec i s = .next t) : t.rom = s.rom := by
  rw [exec_frame h]

/-- The same list under the same configuration reads the same byte at every address. -/
theorem State.memRead_congr (mem : t.mem = s.mem) (config : t.config = s.config) (a : Addr) :
    t.memRead a = s.memRead a := by
  rw [State.memRead, State.memRead, mem, config]

theorem exec_memRead (h : exec i s = .next t) (a : Addr) : t.memRead a = s.memRead a :=
  State.memRead_congr (exec_mem h) (exec_config h) a

theorem exec_pixel (h : exec i s = .next t) (other : writesDisplay i = false) (p : Nat) : t.pixel p = s.pixel p :=
  congrArg (displayRead · p) (exec_disp h other)

/-! ### Registers (R21, R22) -/

theorem State.setResultAndFlag_reg_other {x z : Nibble} (r : Byte) (f : Bool) (flag : z ≠ vf) (target : z ≠ x) :
    (s.setResultAndFlag x r f).reg z = s.reg z := by
  rw [State.setResultAndFlag_reg, if_neg flag, if_neg target]

/-- A register is as before unless it is the destination, or `VF` under an instruction that writes a flag. -/
theorem exec_reg {z : Nibble} (h : exec i s = .next t) (target : destination i ≠ some z)
    (flag : z = vf → writesFlag i s = false) : t.reg z = s.reg z := by
  have notVf (writes : writesFlag i s = true) : z ≠ vf := fun e => by simp [flag e] at writes
  have notTarget {x : Nibble} (e : destination i = some x) : z ≠ x := fun e' => target (e' ▸ e)
  cases hw : writesRegisters i with
  | false => rw [State.reg, State.reg]; simp only [exec_v h hw]
  | true =>
    cases i with
    | addcVxVy | subVxVy | subrVxVy | shrVxVy | shlVxVy =>
      cases h
      exact State.setResultAndFlag_reg_other _ _ (notVf rfl) (notTarget rfl)
    | setVxKk | addVxKk | setVxVy | orVxVy | andVxVy | xorVxVy | timerGet | randVxKk =>
      cases h
      exact State.reg_setReg_other _ _ _ _ (notTarget rfl)
    | keyAwait x =>
      cases h
      obtain ⟨_, _, e⟩ | ⟨_, e⟩ := s.awaitKey_cases x
      · rw [e]; exact State.reg_setReg_other _ _ _ _ (notTarget rfl)
      · rw [e]; rfl
    | graphicsDraw x y n =>
      rw [exec_graphicsDraw] at h
      cases h
      split
      case isTrue writes => rw [State.setFlag_reg, if_neg (notVf writes)]; rfl
      case isFalse => rfl
    | _ => cases hw

/-- Settles O42: the registers an execute step leaves as they were. -/
theorem onlyTheDestinationAndTheFlagChange : Obligations.OnlyTheDestinationAndTheFlagChange :=
  fun _ _ _ _ h target flag => exec_reg h target flag

/-- Settles O41: each column of the access table by the part's writers. -/
theorem executeWritesOnlyWhatTheMatrixAllows : Obligations.ExecuteWritesOnlyWhatTheMatrixAllows :=
  fun _ _ _ h =>
    ⟨fun target flag _ => exec_reg h (by simp [target]) fun _ => flag, exec_pc h, exec_i h, exec_dt h, exec_st h,
      exec_stack h, exec_memRead h, exec_pixel h, exec_key h, exec_rom h⟩

/-! ### Memory along a step (spec/20_memory.md R56) -/

@[simp] theorem State.beforeExecute_mem (s : State) (keyIn : Option Nibble) :
    (s.beforeExecute keyIn).mem = s.mem := rfl

theorem tick_mem {keyIn : Option Nibble} (h : tick keyIn s = .next t) : t.mem = s.mem := by
  obtain ⟨_, _, he⟩ := tick_next h
  simpa using exec_mem he

theorem step_mem (h : step s = .next t) : t.mem = s.mem :=
  tick_mem (s := s.takeKey) h

/-- Settles O40: the execute step has no memory among the parts it writes, and a step is one execute step. -/
theorem noInstructionWritesMemory : Obligations.NoInstructionWritesMemory :=
  ⟨fun _ _ _ h => ⟨exec_mem h, exec_memRead h⟩,
    fun _ _ h => ⟨step_mem h, State.memRead_congr (step_mem h) (step_config h)⟩⟩

end Sys2Proof.Machine
end

section
/-! What an instruction does not read (spec/10_state.md R25, R29, R30, obligations O44, O45, O46): the key, the sound timer and
the ROM record, in one run beside another. -/

namespace Sys2Proof.Machine

variable {s t : State} {i : Instr}

/-! ### One execute step beside another -/

theorem exec_ret_of_entry (entry : 0 < s.sp.val) : exec .ret s =
    .next { s with sp := ⟨s.sp.val - 1, by omega⟩, pc := s.stack[s.sp.val - 1] } := by
  obtain ⟨_, _, _, e⟩ | ⟨empty, _⟩ := exec_ret_cases s
  · exact e
  · exact absurd empty (Nat.ne_of_gt entry)

theorem exec_ret_of_empty (empty : s.sp.val = 0) : exec .ret s = .fault .stackUnderflow := by
  obtain ⟨entry, _, _, _⟩ | ⟨_, e⟩ := exec_ret_cases s
  · exact absurd empty (Nat.ne_of_gt entry)
  · exact e

/-- Another key, sound timer and ROM record: the parts that few instructions read. -/
def State.withKeySoundRom (s : State) (k : Option Nibble) (b : Byte) (r : Option RomRange) : State :=
  { s with key := k, st := b, rom := r }

theorem State.withKeySoundRom_config (s : State) (k : Option Nibble) (b : Byte) (r : Option RomRange) :
    (s.withKeySoundRom k b r).config = s.config := rfl

theorem State.awaitKey_withKeySoundRom (s : State) (x : Nibble) (b : Byte) (r : Option RomRange) :
    (s.withKeySoundRom s.key b r).awaitKey x = (s.awaitKey x).withKeySoundRom s.key b r := by
  obtain ⟨_, _, _, _, _, _, _, _, _, key, _, _, _, _, _, _⟩ := s
  cases key with
  | none => rfl
  | some k => rfl

/-- The execute step under another key (but for AwaitKey), sound timer and ROM record does the same, and leaves them as they
are where it does not write them. -/
theorem exec_withKeySoundRom (k : Option Nibble) (b : Byte) (r : Option RomRange)
    (sameKey : readsKey i = true → k = s.key) :
    exec i (s.withKeySoundRom k b r) =
      mapNext (fun t => t.withKeySoundRom k (if writesSound i then t.st else b) r) (exec i s) := by
  cases i with
  | ret =>
    by_cases entry : 0 < s.sp.val
    · rw [exec_ret_of_entry entry, exec_ret_of_entry (s := s.withKeySoundRom k b r) entry]; rfl
    · have empty : s.sp.val = 0 := by omega
      rw [exec_ret_of_empty empty, exec_ret_of_empty (s := s.withKeySoundRom k b r) empty]; rfl
  | call nnn =>
    obtain ⟨room, _, e⟩ | ⟨full, e⟩ := exec_call_cases s nnn
    · obtain ⟨_, _, e'⟩ | ⟨full', _⟩ := exec_call_cases (s.withKeySoundRom k b r) nnn
      · rw [e, e']; rfl
      · exact absurd full' (Nat.ne_of_lt room)
    · rw [e, exec_call_of_full (s.withKeySoundRom k b r) nnn full]; rfl
  | sys nnn =>
    rw [exec_sys, exec_sys, State.withKeySoundRom_config]
    split
    · rfl
    · rfl
  | graphicsDraw x y n =>
    rw [exec_graphicsDraw, exec_graphicsDraw, State.withKeySoundRom_config]
    split
    · rfl
    · rfl
  | keyAwait x =>
    obtain rfl := sameKey rfl
    rw [exec_keyAwait, exec_keyAwait, State.awaitKey_withKeySoundRom]
    rfl
  | skipEqVxKk | skipNeVxKk | skipEqVxVy | skipNeVxVy =>
    simp only [exec_skipEqVxKk, exec_skipNeVxKk, exec_skipEqVxVy, exec_skipNeVxVy, State.skipIf_eq]
    rfl
  | _ => rfl

/-- Two changes of the next state are one where they agree on the state that comes. -/
theorem mapNext_congr {f g : State → State} {o : Outcome} (same : ∀ t, o = .next t → f t = g t) :
    mapNext f o = mapNext g o := by
  cases o with
  | next t => rw [mapNext, mapNext, same t rfl]
  | fault r => rfl
  | refused r => rfl

/-- Settles O44: the sound timer and the ROM record given their own values again. -/
theorem keyReachesOnlyAwaitKey : Obligations.KeyReachesOnlyAwaitKey := by
  intro i k s other
  refine (exec_withKeySoundRom (s := s) k s.st s.rom (by simp [other])).trans (mapNext_congr fun t h => ?_)
  rw [← exec_st_eq h, ← exec_rom h]
  rfl

/-- Settles O45: the key and the ROM record given their own values again. -/
theorem soundTimerReachesNothing : Obligations.SoundTimerReachesNothing := by
  intro i b s
  refine (exec_withKeySoundRom (s := s) s.key b s.rom fun _ => rfl).trans (mapNext_congr fun t h => ?_)
  rw [← exec_key h, ← exec_rom h]
  split
  · rfl
  · rfl

/-! ### The ROM record along a tick (R30) -/

theorem exec_withRom (i : Instr) (r : Option RomRange) (s : State) :
    exec i { s with rom := r } = mapNext (fun t => { t with rom := r }) (exec i s) := by
  refine (exec_withKeySoundRom (s := s) s.key s.st r fun _ => rfl).trans (mapNext_congr fun t h => ?_)
  rw [← exec_st_eq h, ← exec_key h]
  rfl

theorem tick_of_exited (keyIn : Option Nibble) (ended : s.exited = true) :
    tick keyIn s = .refused .runEnded := by
  rw [tick, if_pos ended]

theorem tick_withRom (keyIn : Option Nibble) (r : Option RomRange) (s : State) :
    tick keyIn { s with rom := r } = mapNext (fun t => { t with rom := r }) (tick keyIn s) := by
  obtain ⟨ended, e⟩ | ⟨running, hd, e⟩ | ⟨running, i, hd, e⟩ := tick_cases s keyIn
  · rw [e, tick_of_exited (s := { s with rom := r }) keyIn ended]; rfl
  · rw [e, tick_of_decode_error (s := { s with rom := r }) keyIn running hd]; rfl
  · rw [e, tick_of_decode_ok (s := { s with rom := r }) keyIn running hd]
    exact exec_withRom i r (s.beforeExecute keyIn)

@[simp] theorem State.beforeExecute_rom (s : State) (keyIn : Option Nibble) :
    (s.beforeExecute keyIn).rom = s.rom := rfl

theorem tick_rom {keyIn : Option Nibble} (h : tick keyIn s = .next t) : t.rom = s.rom := by
  obtain ⟨_, _, he⟩ := tick_next h
  simpa using exec_rom he

/-- Settles O46: the fetch reads memory and `pc` alone, and the execute step neither reads nor writes the record. -/
theorem romRecordReachesNoTick : Obligations.RomRecordReachesNoTick :=
  fun keyIn r s => ⟨tick_withRom keyIn r s, fun _ => tick_rom⟩

end Sys2Proof.Machine
end

section
/-! The invariant of the state (spec/10_state.md R35, obligations O47, O48, O49, O50): the execute step keeps it, so do the
host's other operations, and it holds after reset. -/

namespace Sys2Proof.Machine

variable {s t : State} {i : Instr}

theorem State.inv_iff (s : State) : s.inv = true ↔
    Memory.wf s.config s.mem = true ∧ displayOk s.disp ∧ romInMemory s.rom = true ∧ configLegal s.config = true := by
  simp [State.inv, displayOk, and_assoc]

/-! ### The execute step -/

theorem displayOk_nil : displayOk [] := ⟨rfl, rfl⟩

theorem exec_graphicsDraw_disp {x y n : Nibble} (h : exec (.graphicsDraw x y n) s = .next t) :
    t.disp = (s.drawResult x y n).1 := by
  rw [exec_graphicsDraw] at h
  cases h
  split
  · rfl
  · rfl

/-- The two writers of the display leave it in form: Clear empties it, Draw is a blit. -/
theorem exec_displayOk (h : exec i s = .next t) (ok : displayOk s.disp) : displayOk t.disp := by
  cases hw : writesDisplay i with
  | false => rwa [exec_disp h hw]
  | true =>
    cases i with
    | graphicsClear => cases h; exact displayOk_nil
    | graphicsDraw x y n => exact exec_graphicsDraw_disp h ▸ displayOk_blit _ _ _ ok
    | _ => cases hw

theorem exec_inv (h : exec i s = .next t) (inv : s.inv = true) : t.inv = true := by
  obtain ⟨mem, disp, rom, legal⟩ := s.inv_iff.mp inv
  rw [t.inv_iff, exec_mem h, exec_config h, exec_rom h]
  exact ⟨mem, exec_displayOk h disp, rom, legal⟩

theorem tick_inv {keyIn : Option Nibble} (h : tick keyIn s = .next t) (inv : s.inv = true) : t.inv = true := by
  obtain ⟨_, _, he⟩ := tick_next h
  exact exec_inv he inv

/-- Settles O47: a step is a tick, and a tick that gives a next state is one execute step. -/
theorem stepKeepsTheStateInvariant : Obligations.StepKeepsTheStateInvariant :=
  fun s _ inv h => tick_inv (s := s.takeKey) h inv

/-! ### Reset -/

theorem resetWith_inv {c : Config} (legal : configLegal c = true) : (State.resetWith c).inv = true :=
  (State.resetWith c).inv_iff.mpr ⟨rfl, displayOk_nil, rfl, legal⟩

/-- Settles O49: memory and display list nothing, and the default font ends at `0x0A0`. -/
theorem resetMeetsTheStateInvariant : Obligations.ResetMeetsTheStateInvariant :=
  ⟨fun _ => resetWith_inv, resetWith_inv (c := configAtReset) rfl⟩

/-! ### The other host operations (spec/70_reset_and_hazards.md) -/

theorem hostLoad_inv (offset : Addr) (bytes : List Byte) (inv : s.inv = true) :
    (hostLoad offset bytes s).inv = true := by
  obtain ⟨mem, disp, rom, legal⟩ := s.inv_iff.mp inv
  rw [hostLoad, s.loadBytes_eq, State.inv_iff]
  exact ⟨s.loadBytes_wf _ _ mem, disp, rom, legal⟩

theorem State.setRom_inv {r : Option RomRange} (inMemory : romInMemory r = true) (inv : s.inv = true) :
    (s.setRom r).inv = true := by
  obtain ⟨mem, disp, _, legal⟩ := s.inv_iff.mp inv
  exact (State.inv_iff _).mpr ⟨mem, disp, inMemory, legal⟩

/-- The recorded length stops at the top of memory (R262). -/
theorem romInMemory_copied (offset : Addr) (length : Nat) :
    romInMemory (some ⟨offset, min length (4096 - offset.toNat)⟩) = true := by
  have := offset.isLt
  simp only [romInMemory, decide_eq_true_eq]
  omega

theorem hostStep_inv {op : HostOp} (inv : s.inv = true) (h : hostStep op s = .next t) : t.inv = true := by
  replace h := hostStep_next h
  cases op with
  | tick keyIn => exact tick_inv h inv
  | reset =>
    obtain ⟨_, _, _, legal⟩ := s.inv_iff.mp inv
    cases h
    exact resetWith_inv legal
  | load offset bytes => cases h; exact hostLoad_inv offset bytes inv
  | loadRom offset bytes =>
    obtain ⟨_, rfl⟩ := hostLoadRom_next h
    exact State.setRom_inv (romInMemory_copied offset _) (hostLoad_inv offset bytes inv)
  | unloadRom =>
    obtain ⟨r, _, rfl⟩ := hostUnloadRom_next h
    exact State.setRom_inv rfl (hostLoad_inv r.start _ inv)
  | inject op =>
    obtain ⟨_, _, he⟩ := hostInject_next h
    exact exec_inv he inv

/-- Settles O48: operation by operation; a load keeps the canonical form and a ROM record ends inside memory. -/
theorem hostOperationsKeepTheStateInvariant : Obligations.HostOperationsKeepTheStateInvariant :=
  fun _ _ _ => hostStep_inv

/-! ### Reachable states (R35) -/

/-- The invariant along a run from reset. -/
theorem inv_of_reachable (h : s.reachable) : s.inv = true := by
  obtain ⟨c, ops, legal, run⟩ := h
  rw [← hostRun_next _ run]
  exact Session.run_keeps (P := fun u => u.inv = true) (fun _ _ _ => hostStep_inv) ops _ (resetWith_inv legal)

/-- Settles O50: the display by the invariant, the other bounds by the widths of the fields. -/
theorem reachableStatesMeetTheBounds : Obligations.ReachableStatesMeetTheBounds := by
  intro s h
  have inv := inv_of_reachable h
  obtain ⟨_, ⟨_, onOff⟩, _, _⟩ := s.inv_iff.mp inv
  exact ⟨Nat.le_of_lt_succ s.sp.isLt, s.pc.isLt, s.i.isLt, fun j => s.stack[j.val].isLt, fun k _ => k.isLt,
    displayRead_onOff onOff, inv⟩

end Sys2Proof.Machine
end

section
/-! Fetch and step (spec/20_memory.md R50, R53, spec/40_tick_cycle.md R121, R122, R127, obligations O10, O11): the fetched word
as a number, and a step as the tick of the next key. -/

namespace Sys2Proof

theorem wordOfBytes_toNat (hi lo : Byte) : (wordOfBytes hi lo).toNat = 256 * hi.toNat + lo.toNat := by
  have low : lo.toNat < 2 ^ 8 := lo.isLt
  rw [wordOfBytes, BitVec.toNat_append, ← Nat.shiftLeft_add_eq_or_of_lt low, Nat.shiftLeft_eq]
  omega

namespace Machine

variable {s t : State} {i : Instr}

theorem State.fetchWord_toNat (s : State) :
    s.fetchWord.toNat = 256 * (s.memRead s.pc).toNat + (s.memRead (s.pc + 1)).toNat :=
  wordOfBytes_toNat _ _

/-- The address after `a`, as a number modulo 4096 (spec/00_scope.md R9). -/
theorem addr_add_one (a : Addr) : a + 1 = BitVec.ofNat 12 ((a.toNat + 1) % 4096) :=
  BitVec.eq_of_toNat_eq (by simp [BitVec.toNat_add])

/-- Settles O11: the two bytes joined, the second address taken modulo 4096. -/
theorem fetchIsBigEndianAndWraps : Obligations.FetchIsBigEndianAndWraps := by
  intro s
  rw [s.fetchWord_toNat, addr_add_one]

theorem step_of_decode_ok (running : s.exited = false) (hd : decode s.fetchWord = .ok i) :
    step s = exec i (s.takeKey.beforeExecute s.nextKey) :=
  tick_of_decode_ok (s := s.takeKey) s.nextKey running hd

theorem State.nextKey_of_supplied {k : Option Nibble} {rest : List (Option Nibble)} (h : s.keyInputs = k :: rest) :
    s.nextKey = k := by
  rw [State.nextKey, h]

theorem State.nextKey_of_free (h : s.keyInputs = []) : s.nextKey = Config.freeKey s.ticks := by
  rw [State.nextKey, h]

/-- Settles O10: the tick's pseudocode in the state whose key input is used up. -/
theorem stepRunsTheDecodedInstruction : Obligations.StepRunsTheDecodedInstruction := by
  refine fun s => ⟨fun running i hd => ?_, rfl, fun k rest => s.nextKey_of_supplied, s.nextKey_of_free⟩
  exact (tickFollowsThePseudocode s.nextKey s.takeKey running).1 i hd

end Machine
end Sys2Proof
end

section
/-! A tick that gives a next state (spec/10_state.md R23, spec/40_tick_cycle.md R124, R128, obligations O13, O14, O16): its timers,
its `pc`, and any number of ticks that wait for a key. -/

namespace Sys2Proof.Machine

variable {s t : State} {i : Instr} {keyIn : Option Nibble}

theorem exec_of_tick (hd : decode s.fetchWord = .ok i) (h : tick keyIn s = .next t) :
    exec i (s.beforeExecute keyIn) = .next t := by
  obtain ⟨i', hd', he⟩ := tick_next h
  obtain rfl : i = i' := Except.ok.inj (hd.symm.trans hd')
  exact he

/-! ### Timers -/

theorem tick_dt (hd : decode s.fetchWord = .ok i) (h : tick keyIn s = .next t) (other : writesDelay i = false) :
    t.dt.toNat = s.dt.toNat - 1 :=
  (congrArg BitVec.toNat (exec_dt (exec_of_tick hd h) other)).trans (countDown_toNat s.dt)

theorem tick_st (hd : decode s.fetchWord = .ok i) (h : tick keyIn s = .next t) (other : writesSound i = false) :
    t.st.toNat = s.st.toNat - 1 :=
  (congrArg BitVec.toNat (exec_st (exec_of_tick hd h) other)).trans (countDown_toNat s.st)

/-- Settles O13: the timers count before the execute step, whose writers of a timer are Fx15 and Fx18. -/
theorem timersCountOncePerTick : Obligations.TimersCountOncePerTick := by
  intro keyIn s t i hd h
  refine ⟨tick_dt hd h, tick_st hd h, ?_, ?_⟩
  · rintro x rfl
    cases exec_of_tick hd h
    rfl
  · rintro x rfl
    cases exec_of_tick hd h
    rfl

/-! ### The program counter -/

theorem State.skipIf_pc (s : State) (taken : Bool) : (s.skipIf taken).pc = if taken then s.pc + 2 else s.pc := by
  rw [s.skipIf_eq, State.setPc_pc]

/-- A Branch of a tick skips from the advanced `pc` (spec/41_flow.md R144). -/
theorem State.beforeExecute_skipIf_pc (s : State) (keyIn : Option Nibble) (taken : Bool) :
    ((s.beforeExecute keyIn).skipIf taken).pc = if taken then s.pc + 4 else s.pc + 2 := by
  have twice : s.pc + 2 + 2 = s.pc + 4 := BitVec.add_assoc s.pc 2 2
  rw [State.skipIf_pc, ← twice]
  rfl

theorem State.beforeExecute_skipIf_beq_pc (s : State) (keyIn : Option Nibble) (a b : Byte) :
    ((s.beforeExecute keyIn).skipIf (a == b)).pc = if a = b then s.pc + 4 else s.pc + 2 := by
  simp [State.beforeExecute_skipIf_pc]

theorem State.beforeExecute_skipIf_bne_pc (s : State) (keyIn : Option Nibble) (a b : Byte) :
    ((s.beforeExecute keyIn).skipIf (a != b)).pc = if a ≠ b then s.pc + 4 else s.pc + 2 := by
  simp [State.beforeExecute_skipIf_pc]

theorem State.offsetTarget_eq (s : State) (nnn : Addr) :
    s.offsetTarget nnn = BitVec.ofNat 12 (nnn.toNat + (s.reg 0x0#4).toNat) :=
  BitVec.eq_of_toNat_eq (by simp [State.offsetTarget, zext12, BitVec.toNat_add])

/-- AwaitKey goes back to its own word while no key is latched (R128). -/
theorem State.beforeExecute_awaitKey_pc (s : State) (keyIn : Option Nibble) (x : Nibble) :
    ((s.beforeExecute keyIn).awaitKey x).pc = if keyIn = none then s.pc else s.pc + 2 := by
  obtain ⟨k, key, e⟩ | ⟨key, e⟩ := (s.beforeExecute keyIn).awaitKey_cases x
  · obtain rfl : keyIn = some k := key
    rw [e]
    rfl
  · obtain rfl : keyIn = none := key
    rw [e]
    exact BitVec.add_sub_cancel s.pc 2

theorem pcAfter_of_other (other : writesPc i = false) (a : Addr) : pcAfter keyIn a s i = a + 2 := by
  cases i with
  | jump | jumpV0 | call | ret | skipEqVxKk | skipNeVxKk | skipEqVxVy | skipNeVxVy | keyAwait => cases other
  | _ => rfl

theorem exec_beforeExecute_pc (h : exec i (s.beforeExecute keyIn) = .next t) :
    t.pc = pcAfter keyIn s.pc s i := by
  cases hw : writesPc i with
  | false => rw [exec_pc h hw, pcAfter_of_other hw]; rfl
  | true =>
    cases i with
    | jump nnn => cases h; rfl
    | jumpV0 nnn => cases h; exact State.offsetTarget_eq _ nnn
    | call nnn =>
      obtain ⟨_, _, e⟩ | ⟨_, e⟩ := exec_call_cases (s.beforeExecute keyIn) nnn
      · rw [e] at h; cases h; rfl
      · rw [e] at h; cases h
    | ret =>
      obtain ⟨_, slot, _, e⟩ | ⟨_, e⟩ := exec_ret_cases (s.beforeExecute keyIn)
      · rw [e] at h
        cases h
        exact (congrArg (Option.getD · _) (Vector.getElem?_eq_getElem slot)).symm
      · rw [e] at h; cases h
    | skipEqVxKk | skipEqVxVy => cases h; exact State.beforeExecute_skipIf_beq_pc s keyIn _ _
    | skipNeVxKk | skipNeVxVy => cases h; exact State.beforeExecute_skipIf_bne_pc s keyIn _ _
    | keyAwait x => cases h; exact s.beforeExecute_awaitKey_pc keyIn x
    | _ => cases hw

/-- Settles O14: the execute step from the advanced `pc`, writer by writer. -/
theorem pcAfterTickFollowsTheTable : Obligations.PcAfterTickFollowsTheTable :=
  fun _ _ _ _ hd h => exec_beforeExecute_pc (exec_of_tick hd h)

/-! ### Waiting for a key (R128) -/

/-- A tick without a key over AwaitKey: the timers count, and nothing else moves but the latched key. -/
theorem tick_awaiting {x : Nibble} (running : s.exited = false) (hd : decode s.fetchWord = .ok (.keyAwait x)) :
    tick none s = .next { s with key := none, dt := countDown s.dt, st := countDown s.st } := by
  have back : s.pc + 2 - 2 = s.pc := BitVec.add_sub_cancel s.pc 2
  have rewound : (s.beforeExecute none).awaitKey x = (s.beforeExecute none).setPc (s.pc + 2 - 2) := rfl
  rw [tick_of_decode_ok none running hd, exec_keyAwait, rewound, back]
  rfl

theorem hostRun_awaiting (k : Nat) {x : Nibble} (running : s.exited = false)
    (hd : decode s.fetchWord = .ok (.keyAwait x)) :
    ∃ key dt st, hostRun (List.replicate k (.tick none)) s = .next { s with key := key, dt := dt, st := st } ∧
      dt.toNat = s.dt.toNat - k ∧ st.toNat = s.st.toNat - k := by
  induction k generalizing s with
  | zero => exact ⟨s.key, s.dt, s.st, rfl, rfl, rfl⟩
  | succ k ih =>
    have first : hostStep (.tick none) s =
        .next { s with key := none, dt := countDown s.dt, st := countDown s.st } := by
      simp [hostStep, running, applyHostOp, tick_awaiting running hd]
    obtain ⟨key, dt, st, run, hdt, hst⟩ :=
      ih (s := { s with key := none, dt := countDown s.dt, st := countDown s.st }) running hd
    refine ⟨key, dt, st, (hostRun_cons s first _).trans run, hdt.trans ?_, hst.trans ?_⟩
    · rw [countDown_toNat, Nat.sub_sub, Nat.add_comm]
    · rw [countDown_toNat, Nat.sub_sub, Nat.add_comm]

/-- Settles O16: by induction on the number of ticks, in which only the key and the timers move. -/
theorem waitingForAKeyStaysAtOnePc : Obligations.WaitingForAKeyStaysAtOnePc := by
  intro k x s running hd
  obtain ⟨key, dt, st, run, hdt, hst⟩ := hostRun_awaiting k running hd
  exact ⟨_, run, rfl, hdt, hst, rfl, by simp [unchangedBut, State.reg, State.pixel, State.memRead]⟩

end Sys2Proof.Machine
end

section
/-! The outcome of a tick (spec/60_exceptions.md R230, R238, obligation O15): what an execute step ends in, and the one cause of
each outcome. -/

namespace Sys2Proof.Machine

variable {s t : State} {i : Instr} {keyIn : Option Nibble}

/-- The outcome of the execute step of an instruction in a state. -/
def execOutcome (i : Instr) (s : State) : TickOutcome :=
  match i with
  | .exit => .exit
  | .call _ => if s.sp.val = 16 then .stackOverflow else .ok
  | .ret => if s.sp.val = 0 then .stackUnderflow else .ok
  | .sys nnn => if s.config.sysCallFaults = true then .sysCallFault nnn else .ok
  | _ => .ok

theorem tickOutcomeOf_next (h : exec i s = .next t) (other : endsRun i = false) (running : s.exited = false) :
    tickOutcomeOf (exec i s) = some .ok := by
  rw [h, tickOutcomeOf, exec_exited h other, running]
  rfl

theorem tickOutcomeOf_exec (running : s.exited = false) : tickOutcomeOf (exec i s) = some (execOutcome i s) := by
  cases i with
  | exit => rfl
  | call nnn =>
    obtain ⟨room, _, e⟩ | ⟨full, e⟩ := exec_call_cases s nnn
    · rw [tickOutcomeOf_next e rfl running, execOutcome, if_neg (Nat.ne_of_lt room)]
    · rw [e, execOutcome, if_pos full]; rfl
  | ret =>
    obtain ⟨entry, _, _, e⟩ | ⟨empty, e⟩ := exec_ret_cases s
    · rw [tickOutcomeOf_next e rfl running, execOutcome, if_neg (Nat.ne_of_gt entry)]
    · rw [e, execOutcome, if_pos empty]; rfl
  | sys nnn =>
    by_cases faults : s.config.sysCallFaults = true
    · rw [exec_sys, execOutcome, if_pos faults, if_pos faults]; rfl
    · rw [tickOutcomeOf_next ((exec_sys s nnn).trans (if_neg faults)) rfl running, execOutcome, if_neg faults]
  | _ => exact tickOutcomeOf_next rfl rfl running

theorem execOutcome_beforeExecute (keyIn : Option Nibble) :
    execOutcome i (s.beforeExecute keyIn) = execOutcome i s := rfl

theorem tickOutcome_of_decode_ok (keyIn : Option Nibble) (running : s.exited = false)
    (hd : decode s.fetchWord = .ok i) : tickOutcome keyIn s = some (execOutcome i s) := by
  rw [tickOutcome, tick_of_decode_ok keyIn running hd, ← execOutcome_beforeExecute keyIn]
  exact tickOutcomeOf_exec running

theorem tickOutcome_of_decode_error (keyIn : Option Nibble) {e : DecodeError} (running : s.exited = false)
    (hd : decode s.fetchWord = .error e) : tickOutcome keyIn s = some (.invalidOpCode s.fetchWord) := by
  obtain rfl := decode_error_word hd
  rw [tickOutcome, tick_of_decode_error keyIn running hd, tickOutcomeOf]

/-! ### The causes -/

theorem execOutcome_ne_invalidOpCode (i : Instr) (s : State) (op : OpWord) : execOutcome i s ≠ .invalidOpCode op := by
  cases i with
  | call | ret | sys => rw [execOutcome]; split <;> simp
  | _ => simp [execOutcome]

theorem execOutcome_eq_exit : execOutcome i s = .exit ↔ i = .exit := by
  cases i with
  | call | ret | sys => rw [execOutcome]; split <;> simp_all
  | _ => simp [execOutcome]

theorem execOutcome_eq_stackOverflow :
    execOutcome i s = .stackOverflow ↔ ∃ nnn, i = .call nnn ∧ s.sp.val = 16 := by
  cases i with
  | call | ret | sys => rw [execOutcome]; split <;> simp_all
  | _ => simp [execOutcome]

theorem execOutcome_eq_stackUnderflow : execOutcome i s = .stackUnderflow ↔ i = .ret ∧ s.sp.val = 0 := by
  cases i with
  | call | ret | sys => rw [execOutcome]; split <;> simp_all
  | _ => simp [execOutcome]

theorem execOutcome_eq_sysCallFault (nnn : Addr) :
    execOutcome i s = .sysCallFault nnn ↔ i = .sys nnn ∧ s.config.sysCallFaults = true := by
  cases i with
  | call | ret | sys => rw [execOutcome]; split <;> simp_all
  | _ => simp [execOutcome]

/-- Settles O15: a tick ends as the decoder's error or as the execute step of the decoded instruction. -/
theorem outcomesHaveExclusiveCauses : Obligations.OutcomesHaveExclusiveCauses := by
  refine ⟨fun keyIn s running => ?_, rfl, rfl, fun _ => rfl, rfl, rfl⟩
  cases hd : decode s.fetchWord with
  | error e =>
    have invalid := invalidWord_of_decode hd
    rw [tickOutcome_of_decode_error keyIn running hd]
    refine ⟨by simp, fun op => ⟨?_, ?_⟩, by simp, by simp, by simp, by simp⟩
    · rintro ⟨⟩; exact ⟨rfl, invalid⟩
    · rintro ⟨rfl, _⟩; rfl
  | ok i =>
    have valid : ¬ invalidWord s.fetchWord := fun h => by simp [decode_of_invalidWord h] at hd
    rw [tickOutcome_of_decode_ok keyIn running hd]
    refine ⟨by simp, fun op => ⟨fun h => ?_, ?_⟩, ?_, ?_, ?_, fun nnn => ?_⟩
    · exact absurd (Option.some.inj h) (execOutcome_ne_invalidOpCode i s op)
    · rintro ⟨rfl, h⟩; exact absurd h valid
    · simp [execOutcome_eq_exit]
    · simp [execOutcome_eq_stackOverflow]
    · simp [execOutcome_eq_stackUnderflow]
    · simp [execOutcome_eq_sysCallFault]

end Sys2Proof.Machine
end

section
/-! Stops (spec/40_tick_cycle.md R129, spec/60_exceptions.md R236, R240, obligation O17): what a stopped session answers, and
`Reset` after it. -/

namespace Sys2Proof.Machine

variable {s : State} {op : HostOp}

theorem hostStep_of_exited (ended : s.exited = true) (other : op ≠ .reset) :
    hostStep op s = .refused .runEnded := by
  simp [hostStep, ended, other]

/-- A refused session stays refused without a `Reset`. -/
theorem Session.run_refused (r : Refusal) (s : State) (ops : List HostOp) (noReset : .reset ∉ ops) :
    (Session.refused r s).run ops = .refused r s := by
  induction ops with
  | nil => rfl
  | cons op rest ih =>
    obtain ⟨first, later⟩ : HostOp.reset ≠ op ∧ HostOp.reset ∉ rest := by simpa using noReset
    rw [Session.run, Session.apply_other _ first.symm]
    exact ih later

theorem hostRun_of_fault {f : Fault} {rest : List HostOp} (h : hostStep op s = .fault f) (noReset : .reset ∉ rest) :
    hostRun (op :: rest) s = .fault f := by
  rw [hostRun, Session.run, Session.apply_running, h]
  exact congrArg Session.outcome (Session.run_faulted s f rest noReset)

theorem hostRun_of_refused {r : Refusal} {rest : List HostOp} (h : hostStep op s = .refused r)
    (noReset : .reset ∉ rest) : hostRun (op :: rest) s = .refused r := by
  rw [hostRun, Session.run, Session.apply_running, h]
  exact congrArg Session.outcome (Session.run_refused r s rest noReset)

/-- `Reset` right after a stop goes on from the reset of the state before the stop (R260). -/
theorem hostRun_reset_after {rest : List HostOp} (stops : (Session.after s (hostStep op s)).base = s) :
    hostRun (op :: .reset :: rest) s = hostRun rest (hostReset s) := by
  rw [hostRun, Session.run, Session.apply_running, Session.run, Session.apply_reset, stops]
  rfl

/-- Settles O17: a stopped session keeps its stop and the state before it, which `Reset` starts from. -/
theorem onlyResetFollowsAStop : Obligations.OnlyResetFollowsAStop :=
  ⟨fun s ended =>
      ⟨tick_of_exited (s := s.takeKey) _ ended, fun _ => hostStep_of_exited ended, _, hostStep_reset s, rfl⟩,
    fun _ _ _ _ h => ⟨hostRun_of_fault h, hostRun_reset_after (by rw [h]; rfl)⟩,
    fun _ _ _ _ h => ⟨hostRun_of_refused h, hostRun_reset_after (by rw [h]; rfl)⟩⟩

end Sys2Proof.Machine
end

section
/-! The offset jump and Return (spec/41_flow.md R141, R143, obligations O19, O21, O22), the latter also right after a Call. -/

namespace Sys2Proof.Machine

variable (s : State)

theorem State.offsetTarget_toNat (nnn : Addr) :
    (s.offsetTarget nnn).toNat = (nnn.toNat + (s.reg 0x0#4).toNat) % 4096 := by
  rw [State.offsetTarget_eq, BitVec.toNat_ofNat]

/-- Settles O19: a new `pc`, the sum taken modulo 4096. -/
theorem offsetJumpAddsV0 : Obligations.OffsetJumpAddsV0 :=
  fun nnn s =>
    ⟨decode_jumpV0Word nnn, _, exec_jumpV0 s nnn, s.offsetTarget_toNat nnn, s.unchangedBut_setPc _⟩

/-- Settles O21: the two cases of a pop; the slot is read and kept. -/
theorem returnPopsThePc : Obligations.ReturnPopsThePc := by
  refine ⟨decode_retWord, fun s => ⟨fun entry => ?_, exec_ret_of_empty⟩⟩
  refine ⟨_, exec_ret_of_entry entry, rfl, Vector.getElem?_eq_getElem _, rfl, ?_⟩
  simp [unchangedBut, State.reg, State.pixel, State.memRead]

/-- Settles O22: the entry that Return pops is the slot that Call has just set to `pc`. -/
theorem returnUndoesCall : Obligations.ReturnUndoesCall := by
  intro nnn s room
  obtain ⟨_, _, call⟩ | ⟨full, _⟩ := exec_call_cases s nnn
  · refine ⟨_, _, call, exec_ret_of_entry (Nat.succ_pos _), ?_, rfl, fun j other => ?_, ?_⟩
    · exact Vector.getElem_set_self room
    · exact Vector.getElem?_set_ne room other.symm
    · simp [unchangedBut, State.reg, State.pixel, State.memRead]
  · exact absurd full (Nat.ne_of_lt room)

end Sys2Proof.Machine
end

section
/-! The arithmetic that writes a flag, the random byte and the timers (spec/42_arithmetic.md R166 to R177, obligations O26 to
O30): each result and flag as a number, and the frame of the write of a result and a flag. -/

namespace Sys2Proof.Machine

variable (s : State)

/-! ### A result, then the flag (R174) -/

theorem State.reg_vf_setResultAndFlag (x : Nibble) (r : Byte) (f : Bool) :
    (s.setResultAndFlag x r f).reg 0xF#4 = flagByte f := by
  rw [s.setResultAndFlag_reg]
  exact if_pos rfl

theorem State.reg_target_setResultAndFlag {x : Nibble} (r : Byte) (f : Bool) (notVf : x ≠ 0xF#4) :
    (s.setResultAndFlag x r f).reg x = r := by
  rw [s.setResultAndFlag_reg, if_pos rfl]
  exact if_neg notVf

/-- Besides the registers a result and a flag touch nothing. -/
theorem State.unchangedBut_setResultAndFlag (x : Nibble) (r : Byte) (f : Bool) :
    unchangedBut [x, 0xF#4] [] s (s.setResultAndFlag x r f) := by
  have other (z : Nibble) (hz : z ∉ [x, 0xF#4]) : (s.setResultAndFlag x r f).reg z = s.reg z := by
    obtain ⟨target, flag⟩ : z ≠ x ∧ z ≠ 0xF#4 := by simpa using hz
    exact State.setResultAndFlag_reg_other r f flag target
  exact ⟨other, by simp [State.setResultAndFlag, State.setFlag]⟩

/-! ### Results and flags as numbers -/

theorem flagByte_toNat (f : Bool) : (flagByte f).toNat = if f = true then 1 else 0 := by
  cases f
  · rfl
  · rfl

theorem carryFlag_toNat (a b : Byte) :
    (flagByte (carryOut a b)).toNat = if 255 < a.toNat + b.toNat then 1 else 0 := by
  simp [flagByte_toNat, carryOut]

theorem noBorrowFlag_toNat (m d : Byte) :
    (flagByte (noBorrow m d)).toNat = if d.toNat ≤ m.toNat then 1 else 0 := by
  simp [flagByte_toNat, noBorrow]

theorem difference_toNat (m d : Byte) : (m - d).toNat = (m.toNat + 256 - d.toNat) % 256 := by
  have := d.isLt
  rw [BitVec.toNat_sub]
  congr 1
  omega

theorem shiftedOutRightFlag_toNat (b : Byte) : (flagByte (shiftedOutRight b)).toNat = b.toNat % 2 := by
  revert b
  decide

theorem shiftedOutLeftFlag_toNat (b : Byte) : (flagByte (shiftedOutLeft b)).toNat = b.toNat / 128 := by
  revert b
  decide

theorem shiftOperand_eq (x y : Nibble) : shiftOperand s x y = (s.shiftInput x y).toNat := by
  unfold shiftOperand State.shiftInput
  split
  · rfl
  · rfl

/-! ### The frame of one timer -/

theorem State.unchangedBut_setDt (b : Byte) : unchangedBut [] [.dt] s (s.setDt b) := by
  simp [unchangedBut]

theorem State.unchangedBut_setSt (b : Byte) : unchangedBut [] [.st] s (s.setSt b) := by
  simp [unchangedBut]

/-! ### The instructions -/

/-- Settles O26: the sum modulo 2^8 and the carry. -/
theorem addWithCarryWritesSumAndCarry : Obligations.AddWithCarryWritesSumAndCarry := by
  refine fun x y s => ⟨decode_addcVxVyWord x y, _, exec_addcVxVy s x y, fun notVf => ?_, ?_,
    s.unchangedBut_setResultAndFlag x _ _⟩
  · rw [s.reg_target_setResultAndFlag _ _ notVf, BitVec.toNat_add]
  · rw [s.reg_vf_setResultAndFlag, carryFlag_toNat]

/-- Settles O27: one difference and its flag, in both operand orders. -/
theorem subtractionsWriteDifferenceAndNoBorrow : Obligations.SubtractionsWriteDifferenceAndNoBorrow := by
  refine fun x y s => ⟨⟨decode_subVxVyWord x y, decode_subrVxVyWord x y⟩,
    ⟨_, exec_subVxVy s x y, fun notVf => ?_, ?_, s.unchangedBut_setResultAndFlag x _ _⟩,
    ⟨_, exec_subrVxVy s x y, fun notVf => ?_, ?_, s.unchangedBut_setResultAndFlag x _ _⟩⟩
  · rw [s.reg_target_setResultAndFlag _ _ notVf, difference_toNat]
  · rw [s.reg_vf_setResultAndFlag, noBorrowFlag_toNat]
  · rw [s.reg_target_setResultAndFlag _ _ notVf, difference_toNat]
  · rw [s.reg_vf_setResultAndFlag, noBorrowFlag_toNat]

/-- Settles O28: the halves and doubles of the configured input, and the bit it loses. -/
theorem shiftsWriteResultAndShiftedOutBit : Obligations.ShiftsWriteResultAndShiftedOutBit := by
  intro x y s
  rw [shiftOperand_eq]
  refine ⟨⟨decode_shrVxVyWord x y, decode_shlVxVyWord x y⟩,
    ⟨_, exec_shrVxVy s x y, fun notVf => ?_, ?_, s.unchangedBut_setResultAndFlag x _ _⟩,
    ⟨_, exec_shlVxVy s x y, fun notVf => ?_, ?_, s.unchangedBut_setResultAndFlag x _ _⟩⟩
  · rw [s.reg_target_setResultAndFlag _ _ notVf, BitVec.toNat_ushiftRight, Nat.shiftRight_one]
  · rw [s.reg_vf_setResultAndFlag, shiftedOutRightFlag_toNat]
  · rw [s.reg_target_setResultAndFlag _ _ notVf, BitVec.toNat_shiftLeft, Nat.shiftLeft_eq, pow_one, mul_comm]
  · rw [s.reg_vf_setResultAndFlag, shiftedOutLeftFlag_toNat]

/-- Settles O29: one register write in the state whose draw is used up. -/
theorem randomizeMasksAFreeDraw : Obligations.RandomizeMasksAFreeDraw := by
  intro x kk s
  have target : ∀ z ∉ [x], (s.takeDraw.setReg x (s.nextDraw &&& kk)).reg z = s.reg z :=
    (s.takeDraw.unchangedBut_setReg x _).1
  refine ⟨decode_randVxKkWord x kk, _, exec_randVxKk s x kk, fun k => ?_, rfl, target, by simp⟩
  rw [State.reg_setReg_same, BitVec.getLsbD_and, State.nextDraw]

/-- Settles O30: one register write and two timer writes. -/
theorem timerInstructionsMoveOneByte : Obligations.TimerInstructionsMoveOneByte :=
  fun x s =>
    ⟨⟨decode_timerGetWord x, decode_setDelayWord x, decode_setSoundWord x⟩,
      ⟨_, exec_timerGet s x, s.reg_setReg_same x _, s.unchangedBut_setReg x _⟩,
      ⟨_, exec_setDelay s x, rfl, s.unchangedBut_setDt _⟩,
      ⟨_, exec_setSound s x, rfl, s.unchangedBut_setSt _⟩⟩

end Sys2Proof.Machine
end

section
/-! IndexAdd, AwaitKey, Exit and SysCall (spec/44_index_font.md R211, spec/45_key_and_system.md R220 to R222, obligations O36 to
O39). -/

namespace Sys2Proof.Machine

variable (s : State)

/-! ### IndexAdd -/

theorem State.indexSum_toNat (x : Nibble) : (s.indexSum x).toNat = (s.i.toNat + (s.reg x).toNat) % 4096 := by
  simp [State.indexSum, zext12, BitVec.toNat_add]

/-- Settles O36: one write of `I`, the sum taken modulo 4096. -/
theorem indexAddWraps : Obligations.IndexAddWraps :=
  fun x s =>
    ⟨decode_indexAddWord x, _, exec_indexAdd s x, s.indexSum_toNat x, s.unchangedBut_setI _⟩

/-! ### AwaitKey -/

theorem keyByte_toNat (k : Nibble) : (keyByte k).toNat = k.toNat := by
  have : k.toNat < 16 := k.isLt
  rw [keyByte, BitVec.toNat_setWidth]
  omega

theorem exec_keyAwait_of_key {k : Nibble} (x : Nibble) (latched : s.key = some k) :
    exec (.keyAwait x) s = .next (s.setReg x (keyByte k)) := by
  rw [exec_keyAwait, State.awaitKey, latched]

theorem exec_keyAwait_of_no_key (x : Nibble) (noKey : s.key = none) :
    exec (.keyAwait x) s = .next (s.setPc (s.pc - 2)) := by
  rw [exec_keyAwait, State.awaitKey, noKey]
  rfl

theorem addr_sub_two_toNat (a : Addr) : (a - 2).toNat = (a.toNat + 4096 - 2) % 4096 := by
  rw [BitVec.toNat_sub]
  simp
  omega

/-- Settles O37: one register write with a key, a new `pc` without. -/
theorem awaitKeyTakesTheKeyOrRewinds : Obligations.AwaitKeyTakesTheKeyOrRewinds := by
  refine fun x s => ⟨decode_keyAwaitWord x, fun k latched => ?_, fun noKey => ?_⟩
  · refine ⟨_, exec_keyAwait_of_key s x latched, ?_, s.unchangedBut_setReg x _⟩
    rw [s.reg_setReg_same, keyByte_toNat]
  · exact ⟨_, exec_keyAwait_of_no_key s x noKey, addr_sub_two_toNat s.pc, s.unchangedBut_setPc _⟩

/-! ### Exit -/

theorem State.unchangedBut_endRun : unchangedBut [] [.exited] s s.endRun := by
  simp [unchangedBut]

theorem tick_of_exitWord {s : State} (keyIn : Option Nibble) (running : s.exited = false) (word : s.fetchWord = 0x00FD#16) :
    tick keyIn s = .next (s.beforeExecute keyIn).endRun :=
  tick_of_decode_ok (i := .exit) keyIn running (word ▸ decode_exitWord)

/-- Settles O38: the execute step sets the mark alone; the tick has prepared the state before it. -/
theorem exitEndsTheRun : Obligations.ExitEndsTheRun := by
  refine ⟨decode_exitWord, fun s => ⟨_, exec_exit s, rfl, s.unchangedBut_endRun⟩, fun keyIn s running word => ?_⟩
  have ticked := tick_of_exitWord keyIn running word
  refine ⟨by rw [tickOutcome, ticked]; rfl, _, by rw [stateAfterTick, ticked], BitVec.toNat_add s.pc 2,
    countDown_toNat s.dt, countDown_toNat s.st, rfl, ?_⟩
  simp [unchangedBut, State.beforeExecute, State.advancePc, State.reg, State.pixel, State.memRead]

/-! ### SysCall -/

/-- Settles O39: the decoder's last row of family 0, and the two settings of `SYSCALL_FAULTS`. -/
theorem sysCallDoesNothing : Obligations.SysCallDoesNothing := by
  refine fun nnn s => ⟨fun free => ?_, fun noFault => ?_, fun faults => ?_⟩
  · exact decode_sysWord ((sysTargetFree_iff nnn).mpr (by simpa using free))
  · rw [exec_sys, noFault]; rfl
  · rw [exec_sys, faults]; rfl

end Sys2Proof.Machine
end

section
/-! Draw (spec/43_graphics.md R191 to R195, obligations O32, O33, O34): the blit's covered pixels as those of the statement, one
Draw as a pass over them, and the same Draw again. -/

namespace Sys2Proof.Machine

variable {s t u : State} {x y n : Nibble}

/-! ### The covered pixels -/

/-- Pixel `p` lies under a visible bit of 1 of the sprite that Draw `x y n` draws. -/
def State.drawn (s : State) (x y n : Nibble) (p : Nat) : Prop :=
  spriteCovers (s.spriteRows n.toNat) (spriteColumn (s.reg x)) (spriteRow (s.reg y)) p

theorem State.spriteAddress_eq (s : State) (r : Nat) : s.spriteAddress r = BitVec.ofNat 12 (s.i.toNat + r) :=
  BitVec.eq_of_toNat_eq (by simp [State.spriteAddress, BitVec.toNat_add])

/-- A visible bit of 1, by the row and the column of the sprite it stands in (R193). -/
theorem State.drawn_iff (s : State) (x y n : Nibble) (p : Nat) : s.drawn x y n p ↔
    ∃ r c, r < n.toNat ∧ c < 8 ∧ spriteRow (s.reg y) + r < 32 ∧ spriteColumn (s.reg x) + c < 64 ∧
      spriteBit (s.memRead (s.spriteAddress r)) c = true ∧
      p = pixelIndex (spriteColumn (s.reg x) + c) (spriteRow (s.reg y) + r) := by
  constructor
  · rintro ⟨r, hr, inRows, c, hc, inColumns, bit, rfl⟩
    refine ⟨r, c, by simpa [State.spriteRows] using hr, List.mem_range.mp hc, inRows, inColumns, ?_, rfl⟩
    simpa [State.spriteRows] using bit
  · rintro ⟨r, c, hr, hc, inRows, inColumns, bit, rfl⟩
    refine ⟨r, by simpa [State.spriteRows] using hr, inRows, c, List.mem_range.mpr hc, inColumns, ?_, rfl⟩
    simpa [State.spriteRows] using bit

theorem State.drawn_lt {p : Nat} (h : s.drawn x y n p) : p < 2048 := by
  obtain ⟨r, c, _, _, _, _, _, rfl⟩ := (s.drawn_iff x y n p).mp h
  unfold pixelIndex
  omega

/-- The pixel at a column and a row of the display is covered as the statement says. -/
theorem State.drawn_iff_drawCovers (s : State) (x y n : Nibble) {column row : Nat} (hc : column < 64) (hr : row < 32) :
    s.drawn x y n (64 * row + column) ↔ drawCovers s x y n column row := by
  rw [State.drawn_iff]
  constructor
  · rintro ⟨r, c, inSprite, inByte, inRows, inColumns, bit, e⟩
    obtain ⟨rfl, rfl⟩ := pixelIndex_injective (c := column) hc inColumns e
    have row : spriteRow (s.reg y) + r - (s.reg y).toNat % 32 = r := Nat.add_sub_cancel_left _ _
    have column : spriteColumn (s.reg x) + c - (s.reg x).toNat % 64 = c := Nat.add_sub_cancel_left _ _
    refine ⟨Nat.le_add_right _ _, Nat.add_lt_add_left inByte _, Nat.le_add_right _ _,
      Nat.add_lt_add_left inSprite _, ?_⟩
    rw [row, column, ← s.spriteAddress_eq]
    exact bit
  · rintro ⟨left, right, top, bottom, bit⟩
    have onColumn : spriteColumn (s.reg x) + (column - (s.reg x).toNat % 64) = column := Nat.add_sub_of_le left
    have onRow : spriteRow (s.reg y) + (row - (s.reg y).toNat % 32) = row := Nat.add_sub_of_le top
    refine ⟨row - (s.reg y).toNat % 32, column - (s.reg x).toNat % 64, by omega, by omega, by omega, by omega, ?_, ?_⟩
    · rw [s.spriteAddress_eq]
      exact bit
    · rw [onColumn, onRow]
      rfl

/-- Every covered pixel has its column and row. -/
theorem State.exists_drawn_iff (s : State) (x y n : Nibble) (P : Nat → Prop) :
    (∃ p, s.drawn x y n p ∧ P p) ↔
      ∃ column row, column < 64 ∧ row < 32 ∧ drawCovers s x y n column row ∧ P (64 * row + column) := by
  constructor
  · rintro ⟨p, covered, hp⟩
    have inDisplay := State.drawn_lt covered
    have split : 64 * (p / 64) + p % 64 = p := Nat.div_add_mod p 64
    have column : p % 64 < 64 := Nat.mod_lt _ (by decide)
    have row : p / 64 < 32 := by omega
    rw [← split] at covered hp
    exact ⟨p % 64, p / 64, column, row, (s.drawn_iff_drawCovers x y n column row).mp covered, hp⟩
  · rintro ⟨column, row, hc, hr, covers, hp⟩
    exact ⟨_, (s.drawn_iff_drawCovers x y n hc hr).mpr covers, hp⟩

/-! ### One Draw -/

/-- All that one Draw does: it toggles the pixels it covers, reports a collision in `VF` under `DRAW_WRITES_VF`, and touches
nothing else. -/
structure DrawStep (x y n : Nibble) (s t : State) : Prop where
  covered : ∀ p, s.drawn x y n p → t.pixel p = toggled (s.pixel p)
  other : ∀ p, ¬ s.drawn x y n p → t.pixel p = s.pixel p
  collision : s.config.drawWritesVf = true → (∃ p, s.drawn x y n p ∧ s.pixel p ≠ 0x00#8) → t.reg vf = 0x01#8
  noCollision : s.config.drawWritesVf = true → ¬ (∃ p, s.drawn x y n p ∧ s.pixel p ≠ 0x00#8) → t.reg vf = 0x00#8
  noFlag : s.config.drawWritesVf = false → t.reg vf = s.reg vf
  registers : ∀ z, z ≠ vf → t.reg z = s.reg z
  frame : t = { s with v := t.v, disp := t.disp }

theorem drawStep_exec (x y n : Nibble) (s : State) : ∃ t, exec (.graphicsDraw x y n) s = .next t ∧ DrawStep x y n s t := by
  have pass : BlitStep (s.drawn x y n) (s.disp, false) (s.drawResult x y n) := blit_step _ _ _ _
  have collides : (s.drawResult x y n).2 = true ↔ ∃ p, s.drawn x y n p ∧ s.pixel p ≠ 0x00#8 := by
    simpa [State.pixel] using pass.collides
  refine ⟨_, exec_graphicsDraw s x y n, ?_⟩
  cases writes : s.config.drawWritesVf with
  | true =>
    rw [if_pos rfl]
    refine ⟨pass.on_covered, pass.on_other, fun _ h => ?_, fun _ h => ?_, fun h => ?_, fun z hz => ?_, rfl⟩
    · rw [State.setFlag_reg, if_pos rfl, collides.mpr h]; rfl
    · rw [State.setFlag_reg, if_pos rfl, Bool.eq_false_iff.mpr (mt collides.mp h)]; rfl
    · simp [writes] at h
    · rw [State.setFlag_reg, if_neg hz]; rfl
  | false =>
    rw [if_neg Bool.false_ne_true]
    exact ⟨pass.on_covered, pass.on_other, fun h => by simp [writes] at h, fun h => by simp [writes] at h, fun _ => rfl,
      fun _ _ => rfl, rfl⟩

namespace DrawStep

theorem config (h : DrawStep x y n s t) : t.config = s.config := by
  rw [h.frame]

theorem unchangedBut_flag (h : DrawStep x y n s t) : unchangedBut [0xF#4] [.disp] s t := by
  have registers : ∀ z ∉ [0xF#4], t.reg z = s.reg z := fun z hz => h.registers z (List.ne_of_not_mem_cons hz)
  refine ⟨registers, ?_⟩
  rw [h.frame]
  simp [State.memRead]

/-- A Draw that does not overwrite its coordinates leaves the sprite where it was. -/
theorem drawn_iff (h : DrawStep x y n s t) (coordinates : t.reg x = s.reg x ∧ t.reg y = s.reg y) (p : Nat) :
    t.drawn x y n p ↔ s.drawn x y n p := by
  obtain ⟨column, row⟩ := coordinates
  have sprite : t.spriteRows n.toNat = s.spriteRows n.toNat := by rw [h.frame]; rfl
  rw [State.drawn, State.drawn, column, row, sprite]

end DrawStep

/-- Settles O32: one pass over the covered pixels, which are those of the statement. -/
theorem drawTogglesTheCoveredPixels : Obligations.DrawTogglesTheCoveredPixels := by
  intro x y n s
  obtain ⟨t, ht, draw⟩ := drawStep_exec x y n s
  have collides := s.exists_drawn_iff x y n fun p => s.pixel p ≠ 0x00#8
  refine ⟨decode_graphicsDrawWord x y n, t, ht, fun column row hc hr => ?_, fun p hp => ?_, fun writes h => ?_,
    fun writes h => ?_, draw.noFlag, draw.unchangedBut_flag⟩
  · rw [← s.drawn_iff_drawCovers x y n hc hr]
    refine ⟨fun covered off => ?_, fun covered on => ?_, draw.other _⟩
    · rw [draw.covered _ covered, off]; rfl
    · rw [draw.covered _ covered, toggled, if_neg on]
  · exact draw.other p fun covered => absurd (State.drawn_lt covered) (Nat.not_lt.mpr hp)
  · exact draw.collision writes (collides.mpr h)
  · exact draw.noCollision writes (mt collides.mp h)

/-- Settles O34: a sprite without rows covers no pixel. -/
theorem drawOfNoRowsLeavesTheDisplay : Obligations.DrawOfNoRowsLeavesTheDisplay := by
  intro x y s
  obtain ⟨t, ht, draw⟩ := drawStep_exec x y 0x0#4 s
  have uncovered (p : Nat) : ¬ s.drawn x y 0x0#4 p := by
    rintro ⟨r, hr, _⟩
    simp [State.spriteRows] at hr
  have pixels (p : Nat) : t.pixel p = s.pixel p := draw.other p (uncovered p)
  refine ⟨t, ht, pixels, ?_, ?_⟩
  · split
    case isTrue writes => exact draw.noCollision writes fun ⟨p, covered, _⟩ => uncovered p covered
    case isFalse noFlag => exact draw.noFlag (Bool.eq_false_iff.mpr noFlag)
  · obtain ⟨registers, pc, i, dt, st, stack, _, rest⟩ := draw.unchangedBut_flag
    exact ⟨registers, fun _ => pc (by decide), fun _ => i (by decide), fun _ => dt (by decide), fun _ => st (by decide),
      fun _ => stack (by decide), fun _ => pixels, by simpa using rest⟩

/-! ### The same Draw twice (R195) -/

theorem toggled_toggled {b : Byte} (h : b = 0x00#8 ∨ b = 0xFF#8) : toggled (toggled b) = b := by
  obtain rfl | rfl := h
  · rfl
  · rfl

theorem toggled_ne_zero_iff (b : Byte) : toggled b ≠ 0x00#8 ↔ b = 0x00#8 := by
  by_cases h : b = 0x00#8
  · simp [toggled, h]
  · simp [toggled, h]

/-- The coordinates stand when neither is `VF`, or `VF` is not written. -/
theorem DrawStep.coordinates (h : DrawStep x y n s t)
    (kept : (x ≠ 0xF#4 ∧ y ≠ 0xF#4) ∨ s.config.drawWritesVf = false) : t.reg x = s.reg x ∧ t.reg y = s.reg y := by
  obtain ⟨hx, hy⟩ | off := kept
  · exact ⟨h.registers x hx, h.registers y hy⟩
  · have all (z : Nibble) : t.reg z = s.reg z := by
      by_cases hz : z = vf
      · rw [hz, h.noFlag off]
      · exact h.registers z hz
    exact ⟨all x, all y⟩

/-- Settles O33: the second Draw covers the same pixels, each toggled back; it collides where the first one turned one on. -/
theorem drawingTwiceRestoresTheDisplay : Obligations.DrawingTwiceRestoresTheDisplay := by
  intro x y n s onOff kept
  obtain ⟨t, ht, first⟩ := drawStep_exec x y n s
  obtain ⟨u, hu, second⟩ := drawStep_exec x y n t
  have same := first.drawn_iff (first.coordinates kept)
  have collides : (∃ p, t.drawn x y n p ∧ t.pixel p ≠ 0x00#8) ↔ drawTurnsOn s x y n := by
    rw [drawTurnsOn, ← s.exists_drawn_iff x y n fun p => s.pixel p = 0x00#8]
    refine exists_congr fun p => ?_
    rw [same]
    refine and_congr_right fun covered => ?_
    rw [first.covered p covered, toggled_ne_zero_iff]
  refine ⟨t, u, ht, hu, fun p => ?_, fun writes h => ?_, fun writes h => ?_⟩
  · by_cases covered : s.drawn x y n p
    · rw [second.covered p ((same p).mpr covered), first.covered p covered]
      exact toggled_toggled (displayRead_onOff onOff p)
    · rw [second.other p (mt (same p).mp covered), first.other p covered]
  · exact second.collision (first.config ▸ writes) (collides.mpr h)
  · exact second.noCollision (first.config ▸ writes) (mt collides.mp h)

end Sys2Proof.Machine
end

section
/-! Memory as data (spec/00_scope.md R10, spec/10_state.md R33, obligations O51, O52): a byte read after a write, and a canonical
list known by what it reads. -/

namespace Sys2Proof.Machine

variable {s t : State}

/-- Settles O51: what memory reads after a write; the write is a new list and nothing else. -/
theorem memoryWriteReadsBack : Obligations.MemoryWriteReadsBack :=
  fun s a q b => ⟨s.memRead_memWrite a q b, rfl⟩

/-! ### Canonical lists -/

theorem pairwise_of_cellsRising {m : List Host.Cell} (h : cellsRising m = true) :
    m.Pairwise fun c d => c.1 < d.1 := by
  induction m with
  | nil => exact List.Pairwise.nil
  | cons c rest ih =>
    simp only [cellsRising, Bool.and_eq_true, List.all_eq_true, decide_eq_true_eq] at h
    exact List.pairwise_cons.mpr ⟨h.1, ih h.2⟩

/-- In a rising list the first entry of an address is its only one. -/
theorem cellsRead_of_mem {dflt : Nat → Byte} {m : List Host.Cell} (rising : cellsRising m = true) {c : Host.Cell}
    (hc : c ∈ m) : cellsRead dflt m c.1 = c.2 := by
  induction m with
  | nil => cases hc
  | cons d rest ih =>
    simp only [cellsRising, Bool.and_eq_true, List.all_eq_true, decide_eq_true_eq] at rising
    obtain ⟨first, rising⟩ := rising
    obtain rfl | hc := List.mem_cons.mp hc
    · simp [cellsRead]
    · simp [cellsRead, Nat.ne_of_lt (first c hc), ih rising hc]

/-- The entries of a canonical list are the addresses that do not read as if unlisted. -/
theorem mem_iff_cellsRead {dflt : Nat → Byte} {bound : Nat} {m : List Host.Cell} (wf : cellsWf dflt bound m = true)
    (c : Host.Cell) : c ∈ m ↔ c.1 < bound ∧ cellsRead dflt m c.1 = c.2 ∧ c.2 ≠ dflt c.1 := by
  obtain ⟨rising, entries⟩ := (cellsWf_iff dflt bound m).mp wf
  constructor
  · exact fun hc => ⟨(entries c hc).1, cellsRead_of_mem rising hc, (entries c hc).2⟩
  · rintro ⟨_, read, listed⟩
    obtain unlisted | entry := cellsRead_cases dflt m c.1
    · exact absurd (read.symm.trans unlisted) listed
    · rwa [read] at entry

/-- Canonical lists that read alike have the same entries in the same order. -/
theorem eq_of_cellsRead_eq {dflt : Nat → Byte} {bound : Nat} {m m' : List Host.Cell} (wf : cellsWf dflt bound m = true)
    (wf' : cellsWf dflt bound m' = true) (alike : ∀ a < bound, cellsRead dflt m a = cellsRead dflt m' a) : m = m' := by
  have ordered {l : List Host.Cell} (h : cellsWf dflt bound l = true) : l.Pairwise fun c d => c.1 < d.1 :=
    pairwise_of_cellsRising ((cellsWf_iff dflt bound l).mp h).1
  refine (ordered wf).eq_of_mem_iff (ordered wf') fun c => ?_
  rw [mem_iff_cellsRead wf, mem_iff_cellsRead wf']
  exact and_congr_right fun inBound => by rw [alike c.1 inBound]

/-- Settles O52: every address below 4096 is an address of memory. -/
theorem canonicalMemoriesThatReadAlikeAreEqual : Obligations.CanonicalMemoriesThatReadAlikeAreEqual := by
  intro s t config wf wf' alike
  rw [config] at wf'
  refine eq_of_cellsRead_eq wf' wf fun a inMemory => ?_
  have number : (BitVec.ofNat 12 a).toNat = a := Nat.mod_eq_of_lt inMemory
  have read := alike (BitVec.ofNat 12 a)
  rwa [State.memRead, State.memRead, number, config] at read

end Sys2Proof.Machine
end

section
/-! Reset (spec/70_reset_and_hazards.md R260, spec/10_state.md R33, R34, obligation O53): the reset contents of memory, and the
reset state after any run. -/

namespace Sys2Proof.Machine

/-! ### The font and the bytes beside it (R33) -/

theorem resetByte_of_glyph (c : Config) (d : Fin 16) (j : Fin 5) :
    resetByte c (c.fontBase.toNat + 5 * d.val + j.val) = (c.fontData[d.val])[j.val] := by
  have offset : c.fontBase.toNat + 5 * d.val + j.val - c.fontBase.toNat = 5 * d.val + j.val := by omega
  have glyph : (5 * d.val + j.val) / 5 = d.val := by omega
  have byte : (5 * d.val + j.val) % 5 = j.val := by omega
  have inFont : c.fontBase.toNat ≤ c.fontBase.toNat + 5 * d.val + j.val := by omega
  simp [resetByte, inFont, offset, glyph, byte]

theorem resetByte_beside_font (c : Config) {a : Nat} (beside : a < c.fontBase.toNat ∨ c.fontBase.toNat + 80 ≤ a) :
    resetByte c a = 0x00#8 := by
  obtain below | past := beside
  · simp [resetByte, Nat.not_le.mpr below]
  · have noGlyph : 16 ≤ (a - c.fontBase.toNat) / 5 := by omega
    simp [resetByte, noGlyph]

/-- A memory that lists nothing holds the reset contents. -/
theorem isResetMemory_of_unlisted {c : Config} {read : Addr → Byte} (unlisted : ∀ a, read a = resetByte c a.toNat) :
    isResetMemory c read := by
  refine ⟨fun d j a ha => ?_, fun a beside => ?_⟩
  · rw [unlisted, ha, resetByte_of_glyph]
  · rw [unlisted, resetByte_beside_font c beside]

theorem hostReset_memRead (s : State) (a : Addr) : (hostReset s).memRead a = resetByte s.config a.toNat := rfl

theorem hostReset_reg (s : State) (x : Nibble) : (hostReset s).reg x = 0x00#8 :=
  Vector.getElem_replicate x.isLt

theorem hostReset_stack (s : State) (j : Fin 16) : (hostReset s).stack[j.val] = 0x000#12 :=
  Vector.getElem_replicate j.isLt

/-- Every field after `Reset` (R34). -/
theorem hostReset_isResetState (s : State) : isResetState s.config (hostReset s) :=
  ⟨isResetMemory_of_unlisted (hostReset_memRead s), rfl, rfl, hostReset_reg s, rfl, rfl, rfl, hostReset_stack s,
    fun _ => rfl, rfl, rfl, rfl, rfl⟩

/-- No run of host operations changes the configuration that `Reset` starts from. -/
theorem Session.run_config (ops : List HostOp) (s : State) :
    ((Session.running s).run ops).base.config = s.config :=
  Session.run_keeps (P := fun u => u.config = s.config) (fun _ _ _ before h => (hostStep_config h).trans before) ops _
    rfl

/-- Settles O53: the reset state of the configuration, which no run changes. -/
theorem resetPutsEveryFieldAtItsResetValue : Obligations.ResetPutsEveryFieldAtItsResetValue := by
  refine ⟨fun s => ⟨_, hostStep_reset s, hostReset_isResetState s⟩, fun ops s => ?_, hostStep_reset State.reset⟩
  refine ⟨_, hostRun_reset_last s ops, ?_⟩
  rw [← Session.run_config ops s]
  exact hostReset_isResetState _

end Sys2Proof.Machine
end

section
/-! ROM records (spec/70_reset_and_hazards.md R262, R263, obligations O55, O56): LoadRom and UnloadRom by the record they find,
and the range an unload clears. -/

namespace Sys2Proof.Machine

variable {offset : Addr} {bytes : List Byte} {s : State}

theorem hostLoadRom_of_loaded {r : RomRange} (loaded : s.rom = some r) :
    hostLoadRom offset bytes s = .fault .doubleLoad := by
  rw [hostLoadRom, loaded]
  rfl

theorem hostLoadRom_of_none (unloaded : s.rom = none) : hostLoadRom offset bytes s =
    .next ((hostLoad offset bytes s).setRom (some ⟨offset, min bytes.length (4096 - offset.toNat)⟩)) := by
  rw [hostLoadRom, unloaded]
  rfl

theorem hostUnloadRom_of_none (unloaded : s.rom = none) : hostUnloadRom s = .fault .unloadOfNothing := by
  rw [hostUnloadRom, unloaded]
  rfl

theorem hostUnloadRom_of_loaded {r : RomRange} (loaded : s.rom = some r) : hostUnloadRom s =
    .next ((hostLoad r.start (List.replicate r.len 0x00#8) s).setRom none) := by
  rw [hostUnloadRom, loaded]
  rfl

/-- What memory reads after zeros are loaded. -/
theorem hostLoad_zeros_memRead (start : Addr) (len : Nat) (s : State) (a : Addr) :
    (hostLoad start (List.replicate len 0x00#8) s).memRead a =
      if start.toNat ≤ a.toNat ∧ a.toNat < start.toNat + len then 0x00#8 else s.memRead a := by
  split
  case isTrue inside =>
    have ha : a.toNat = start.toNat + (a.toNat - start.toNat) := by omega
    have hk : a.toNat - start.toNat < (List.replicate len 0x00#8).length := by simp; omega
    rw [hostLoad_memRead_loaded s hk ha, List.getElem_replicate]
  case isFalse outside => exact hostLoad_memRead_beside s (by simp; omega)

/-- Settles O55: each operation by the record; the cleared range is the load of zeros. -/
theorem romLoadAndUnloadKeepTheirRecord : Obligations.RomLoadAndUnloadKeepTheirRecord := by
  refine fun offset bytes s => ⟨fun loaded => ?_, fun unloaded => hostLoadRom_of_none unloaded,
    fun unloaded => hostUnloadRom_of_none unloaded, fun r loaded => ?_⟩
  · obtain ⟨r, hr⟩ := Option.ne_none_iff_exists'.mp loaded
    exact hostLoadRom_of_loaded hr
  · have read := hostLoad_zeros_memRead r.start r.len s
    refine ⟨_, hostUnloadRom_of_loaded loaded, rfl, fun a start stop => ?_, fun a beside => ?_, ?_⟩
    · rw [State.setRom_memRead, read, if_pos ⟨start, stop⟩]
    · rw [State.setRom_memRead, read, if_neg (by omega)]
    · rw [hostLoad, s.loadBytes_eq]
      rfl

/-- Settles O56: the recorded range ends where the bytes do or at the top of memory, so each address of it is one a byte was
loaded at. -/
theorem unloadClearsExactlyTheLoadedRange : Obligations.UnloadClearsExactlyTheLoadedRange := by
  intro offset bytes s unloaded
  refine ⟨_, _, hostLoadRom_of_none unloaded, hostUnloadRom_of_loaded rfl, rfl, fun a => ?_⟩
  have inMemory : a.toNat < 4096 := a.isLt
  rw [State.setRom_memRead, hostLoad_zeros_memRead]
  dsimp only
  by_cases inside : offset.toNat ≤ a.toNat ∧ a.toNat < offset.toNat + bytes.length
  · rw [if_pos inside, if_pos (by omega)]
  · rw [if_neg inside, if_neg (by omega), State.setRom_memRead, hostLoad_memRead_beside s (by omega)]

end Sys2Proof.Machine
end

section
/-! Inject, the boot sequence and placed words (spec/70_reset_and_hazards.md R264, R266, R271, spec/20_memory.md R60, obligations
O57, O58, O59, O60). -/

namespace Sys2Proof.Machine

variable {s : State} {i : Instr}

/-! ### Inject (R266) -/

theorem hostInject_of_decode_ok {op : OpWord} (s : State) (hd : decode op = .ok i) :
    hostInject op s = exec i s := by
  rw [hostInject, hd]

theorem hostInject_of_invalidWord {op : OpWord} (s : State) (invalid : invalidWord op) :
    hostInject op s = .fault (.invalidOpCode op) := by
  rw [hostInject, decode_of_invalidWord invalid]
  rfl

theorem hostInject_jumpWord (nnn : Addr) (s : State) :
    hostInject (packNnn 0x1#4 nnn) s = .next (s.setPc nnn) :=
  hostInject_of_decode_ok s (decode_jumpWord nnn)

/-- Settles O57: the decoded instruction's execute step, on the injected jump and AwaitKey. -/
theorem injectRunsTheExecuteStepAlone : Obligations.InjectRunsTheExecuteStepAlone :=
  ⟨fun _ s => ⟨fun _ => hostInject_of_decode_ok s, hostInject_of_invalidWord s⟩, hostInject_jumpWord,
    fun x s noKey =>
      (hostInject_of_decode_ok s (decode_keyAwaitWord x)).trans (exec_keyAwait_of_no_key s x noKey)⟩

/-! ### A load seen by the fetch (R60) -/

theorem hostLoad_pc (offset : Addr) (bytes : List Byte) (s : State) : (hostLoad offset bytes s).pc = s.pc := by
  rw [hostLoad, s.loadBytes_eq]

theorem hostLoad_memRead_first (hi lo : Byte) (s : State) : (hostLoad s.pc [hi, lo] s).memRead s.pc = hi :=
  hostLoad_memRead_loaded (bytes := [hi, lo]) s (k := 0) (by simp) rfl

theorem hostLoad_memRead_second (hi lo : Byte) (notTop : s.pc ≠ 0xFFF#12) :
    (hostLoad s.pc [hi, lo] s).memRead (s.pc + 1) = lo := by
  have below : s.pc.toNat ≠ 4095 := fun e => notTop (BitVec.eq_of_toNat_eq e)
  have inMemory := s.pc.isLt
  have following : (s.pc + 1).toNat = s.pc.toNat + 1 := by simp [BitVec.toNat_add]; omega
  exact hostLoad_memRead_loaded (bytes := [hi, lo]) s (k := 1) (by simp) following

/-- Settles O58: below the top both bytes are loaded; at the top the second is dropped and the fetch wraps to address 0. -/
theorem fetchSeesTheHostsWrite : Obligations.FetchSeesTheHostsWrite := by
  intro hi lo s
  rw [State.fetchWord_toNat, hostLoad_pc, hostLoad_memRead_first]
  refine ⟨fun notTop => by rw [hostLoad_memRead_second hi lo notTop], fun top => ?_⟩
  have wrapped : s.pc + 1 = 0x000#12 := by rw [top]; rfl
  have below : (0x000#12 : Addr).toNat < s.pc.toNat := by rw [top]; decide
  rw [wrapped, hostLoad_memRead_beside s (.inl below)]

/-! ### The boot sequence (R264, R271) -/

/-- The injected word `0x1000 | addr` is the jump to the address. -/
theorem jumpWord_eq (addr : Addr) : 0x1000#16 ||| addr.setWidth 16 = packNnn 0x1#4 addr := by
  rw [packNnn, BitVec.append_def]
  rfl

/-- The state that the boot sequence ends in. -/
def bootState (addr : Addr) (bytes : List Byte) (s : State) : State :=
  ((hostLoad addr bytes (hostReset s)).setRom
    (some ⟨addr, min bytes.length (4096 - addr.toNat)⟩)).setPc addr

theorem hostRun_bootOps (addr : Addr) (bytes : List Byte) (s : State) :
    hostRun (bootOps addr bytes) s = .next (bootState addr bytes s) := by
  have running : (hostLoad addr bytes (hostReset s)).exited = false := by rw [hostLoad, State.loadBytes_eq]; rfl
  have load : hostStep (.loadRom addr bytes) (hostReset s) = .next ((hostLoad addr bytes (hostReset s)).setRom
      (some ⟨addr, min bytes.length (4096 - addr.toNat)⟩)) :=
    hostLoadRom_of_none (s := hostReset s) rfl
  rw [bootOps, hostRun_cons s (hostStep_reset s), hostRun_cons _ load, jumpWord_eq]
  refine (hostRun_cons _ (t := bootState addr bytes s) ?_ []).trans rfl
  simp [hostStep, running, applyHostOp, hostInject_jumpWord, bootState]

/-- Settles O59: a reset state in which a load, a record and a jump set memory, `rom` and `pc` alone. -/
theorem bootReachesTheLaunchState : Obligations.BootReachesTheLaunchState := by
  intro addr bytes s fits
  have record : min bytes.length (4096 - addr.toNat) = bytes.length := by omega
  obtain ⟨mem, _, i, reg, dt, st, sp, stack, pixel, key, _, config, exited⟩ := hostReset_isResetState s
  refine ⟨bootState addr bytes s, hostRun_bootOps addr bytes s, fun k hk a ha => ?_,
    ⟨(hostReset s).memRead, mem, fun a beside => ?_⟩, rfl, ?_⟩
  · exact hostLoad_memRead_loaded (hostReset s) hk ha
  · exact hostLoad_memRead_beside (hostReset s) beside
  · rw [bootState, record, hostLoad, State.loadBytes_eq]
    exact ⟨reg, i, dt, st, sp, stack, pixel, key, rfl, exited, config⟩

/-! ### A placed word -/

theorem tableWord_toNat (op : OpWord) : BitVec.ofNat 16 (op.toNat % 2 ^ 16) = op := by
  rw [Nat.mod_eq_of_lt op.isLt, BitVec.ofNat_toNat, BitVec.setWidth_eq]

theorem decodeTableWord_encode (wf : i.wellFormed = true) : decodeTableWord 16 (encode i).toNat = some i := by
  rw [decodeTableWord, tableWord_toNat, decodeBytes, wordOfBytes_bytes, decode_encode wf]

theorem State.withFetchWord_toNat (s : State) (op : OpWord) : s.withFetchWord 16 op.toNat = s.placeWord op :=
  congrArg s.placeWord (tableWord_toNat op)

theorem State.placeWord_memRead_other (s : State) (op : OpWord) {a : Addr} (first : a ≠ s.pc) (second : a ≠ s.pc + 1) :
    (s.placeWord op).memRead a = s.memRead a := by
  have stored : (s.placeWord op).memRead a =
      ((s.memWrite s.pc (highByte op)).memWrite (s.pc + 1) (lowByte op)).memRead a := rfl
  rw [stored, State.memRead_memWrite, if_neg second, State.memRead_memWrite, if_neg first]

/-- Settles O60: the next fetch reads the placed word, which decodes to the instruction. -/
theorem placedWordIsTheNextInstructionRun : Obligations.PlacedWordIsTheNextInstructionRun := by
  refine fun i s wf => ⟨decodeTableWord_encode wf, _, rfl, ?_⟩
  rw [State.withFetchWord_toNat]
  have fetched : decode (s.placeWord (encode i)).fetchWord = .ok i := by
    rw [State.placeWord_fetchWord, decode_encode wf]
  exact ⟨rfl, step_of_decode_ok rfl fetched, fun _ => s.placeWord_memRead_other _⟩

end Sys2Proof.Machine
end
